-- ==== Sys2Proof/Word.lean ====
section
/-! DEFINITION. The two bit-vector types of the hardware: the 32-bit word and the 16-bit half
(10_state.md R10). -/

namespace Sys2Proof

/-- A word: registers, memory cells, instruction words, hook values, the secondary operand (R10). -/
abbrev Word := BitVec 32

/-- A half: an ALU operand or result, a data address, the `field` of an instruction (R10). -/
abbrev Half := BitVec 16

end Sys2Proof
end

