-- ==== Sys2Proof/Syntax.lean ====
section
/-! DEFINITION. The 19 instructions (00_scope.md R2, 30_encoding.md R57), one constructor per row of
the opcode table. Bits an instruction ignores (R61) are kept as fields, so that an instruction and its
word determine each other. -/

namespace Sys2Proof

/-- A register index of a 5-bit field (R53, R54). -/
abbrev Reg := Fin 32

/-- An index into the condition table, `cond = bits[23:20]` (R54). -/
abbrev Cond := Fin 16

/-- The secondary operand as encoded (R52, R56): `soii = 1` is a literal, `soii = 0` a register index of
16 bits. -/
inductive Operand where
  | imm (field : Half)
  | reg (field : Half)
  deriving DecidableEq, Repr

/-- The raw instruction field, bits 15 to 0 (R50). -/
def Operand.field : Operand → Half
  | .imm f => f
  | .reg f => f

/-- The instructions, in the order of the opcode table. `moi` is the flag request where R51 says so and
an ignored bit for jump, load, store and halt; the multiplies' own `moi` is their selector (R59, R60) and
is no field. -/
inductive Instr where
  | move (moi : Bool) (rd rs : Reg) (sec : Operand)
  | jump (moi : Bool) (rd : Reg) (sync : Bool) (cond : Cond) (sec : Operand)
  | load (moi : Bool) (rd rs : Reg) (sec : Operand)
  | exchange (moi : Bool) (rd rs : Reg) (sec : Operand)
  | sub (moi : Bool) (rd rs : Reg) (sec : Operand)
  | sbb (moi : Bool) (rd rs : Reg) (sec : Operand)
  | add (moi : Bool) (rd rs : Reg) (sec : Operand)
  | adc (moi : Bool) (rd rs : Reg) (sec : Operand)
  | xor (moi : Bool) (rd rs : Reg) (sec : Operand)
  | or (moi : Bool) (rd rs : Reg) (sec : Operand)
  | store (moi : Bool) (rd rs : Reg) (sec : Operand)
  | shl (moi : Bool) (rd rs : Reg) (sec : Operand)
  | shr (moi : Bool) (rd rs : Reg) (sec : Operand)
  | and (moi : Bool) (rd rs : Reg) (sec : Operand)
  | halt (moi : Bool) (rd rs : Reg) (sec : Operand)
  | mul (rd rs : Reg) (sec : Operand)
  | muls (rd rs : Reg) (sec : Operand)
  | mulh (rd rs : Reg) (sec : Operand)
  | mulx (rd rs : Reg) (sec : Operand)
  deriving DecidableEq, Repr

end Sys2Proof
end

