-- ==== Sys2Proof/WellFormed.lean ====
section
/-! DEFINITION. Which instruction terms have an encoding (30_encoding.md R58, R66): the direction of a
shift is bit 15 of its field, so shl needs a field below 0x8000 and shr one at or above it. Every other
bound is carried by the types of Syntax.lean. -/

namespace Sys2Proof

/-- "shl needs field < 32768, shr needs field >= 32768" (R66); every other term is encodable. -/
def Instr.wellFormed : Instr → Bool
  | .move _ _ _ _ => true
  | .jump _ _ _ _ _ => true
  | .load _ _ _ _ => true
  | .exchange _ _ _ _ => true
  | .sub _ _ _ _ => true
  | .sbb _ _ _ _ => true
  | .add _ _ _ _ => true
  | .adc _ _ _ _ => true
  | .xor _ _ _ _ => true
  | .or _ _ _ _ => true
  | .store _ _ _ _ => true
  | .shl _ _ _ sec => decide (sec.field.toNat < 32768)
  | .shr _ _ _ sec => decide (32768 ≤ sec.field.toNat)
  | .and _ _ _ _ => true
  | .halt _ _ _ _ => true
  | .mul _ _ _ => true
  | .muls _ _ _ => true
  | .mulh _ _ _ => true
  | .mulx _ _ _ => true

end Sys2Proof
end

