-- ==== Sys2Proof/Decode.lean ====
section
/-! DEFINITION. The decoder, a pure bit-field extractor over one format (30_encoding.md), the encoder of
R64, and the opcode rows of R64 as data. -/

namespace Sys2Proof

/-- `v[hi:lo]`, the unsigned number formed by bits `hi` down to `lo` (00_scope.md R7). -/
def bits (w : Word) (hi lo : Nat) : Nat :=
  w.toNat / 2 ^ lo % 2 ^ (hi + 1 - lo)

/-- `moi = bits[31]` (R51). -/
def moiOf (w : Word) : Bool := decide (bits w 31 31 = 1)

/-- `soii = bits[30]` (R52). -/
def soiiOf (w : Word) : Bool := decide (bits w 30 30 = 1)

/-- `rd = bits[29:25]` (R53). -/
def rdOf (w : Word) : Reg := Fin.ofNat 32 (bits w 29 25)

/-- `rs = bits[24:20]` (R54). -/
def rsOf (w : Word) : Reg := Fin.ofNat 32 (bits w 24 20)

/-- `sync = bits[24]` (R54). -/
def syncOf (w : Word) : Bool := decide (bits w 24 24 = 1)

/-- `cond = bits[23:20]` (R54). -/
def condOf (w : Word) : Cond := Fin.ofNat 16 (bits w 23 20)

/-- `op = bits[19:16]`, 0 to 15 (R55). -/
def opOf (w : Word) : Nat := bits w 19 16

/-- `field = bits[15:0]` (R50). -/
def fieldOf (w : Word) : Half := BitVec.ofNat 16 (bits w 15 0)

/-- The secondary operand as encoded (R52, R56). -/
def operandOf (w : Word) : Operand :=
  if soiiOf w then .imm (fieldOf w) else .reg (fieldOf w)

/-- Decode one word. Total: every word is exactly one instruction (R57 to R60, R62). The last
row is opcode 15, the only value `op` has left there. -/
def decode (w : Word) : Instr :=
  let moi := moiOf w
  let rd := rdOf w
  let rs := rsOf w
  let sec := operandOf w
  match opOf w with
  | 0 => .move moi rd rs sec
  | 1 => .jump moi rd (syncOf w) (condOf w) sec
  | 2 => .load moi rd rs sec
  | 3 => .exchange moi rd rs sec
  | 4 => .sub moi rd rs sec
  | 5 => .sbb moi rd rs sec
  | 6 => .add moi rd rs sec
  | 7 => .adc moi rd rs sec
  | 8 => .xor moi rd rs sec
  | 9 => .or moi rd rs sec
  | 10 => .store moi rd rs sec
  | 11 => if bits w 15 15 = 0 then .shl moi rd rs sec else .shr moi rd rs sec
  | 12 => .and moi rd rs sec
  | 13 => .halt moi rd rs sec
  | 14 => if moi then .muls rd rs sec else .mul rd rs sec
  | _ => if moi then .mulx rd rs sec else .mulh rd rs sec

/-- Why the decoder of a stream answers no instruction: only when there is no word to decode (R62: no
encoding is reserved or illegal). -/
inductive DecodeReject where
  | noWord
  deriving DecidableEq, Repr

/-- Decode the first instruction of a stream of words; the length of every instruction is one word (R65). -/
def decodeStream : List Word → Except DecodeReject (Instr × List Word)
  | [] => .error .noWord
  | w :: rest => .ok (decode w, rest)

/-- The words of a table row's bits: one word, the bits above `nbits` zero; no word where `nbits` is not the
size of one (or part of one) or the number does not fit it (log entry 38). -/
def tableWords (nbits w : Nat) : List Word :=
  if 0 < nbits ∧ nbits ≤ 32 ∧ w < 2 ^ nbits then [BitVec.ofNat 32 w] else []

/-- The instruction the decoder reads from an opcode-table row's bits. -/
def decodeTableWord (nbits w : Nat) : Option Instr :=
  match decodeStream (tableWords nbits w) with
  | .ok (i, _) => some i
  | .error _ => none

/-- `encode(moi, soii, rd, rs, op, field)` of R64. -/
def encodeFields (moi soii : Bool) (rd rs op : Nat) (field : Half) : Word :=
  BitVec.ofNat 32
    (moi.toNat * 2 ^ 31 + soii.toNat * 2 ^ 30 + rd * 2 ^ 25 + rs * 2 ^ 20 + op * 2 ^ 16 + field.toNat)

/-- The `soii` bit of an operand (R52). -/
def soiiBit : Operand → Bool
  | .imm _ => true
  | .reg _ => false

/-- The encoding of an instruction with fields `moi`, `rd`, `rs`, `sec` under opcode `op`. -/
def encodeWith (op : Nat) (moi : Bool) (rd rs : Reg) (sec : Operand) : Word :=
  encodeFields moi (soiiBit sec) rd.val rs.val op sec.field

/-- The encoder, from the layout of R50 and the opcode map of R57 to R60. -/
def encode : Instr → Word
  | .move moi rd rs sec => encodeWith 0 moi rd rs sec
  | .jump moi rd sync cond sec =>
    encodeFields moi (soiiBit sec) rd.val (sync.toNat * 16 + cond.val) 1 sec.field
  | .load moi rd rs sec => encodeWith 2 moi rd rs sec
  | .exchange moi rd rs sec => encodeWith 3 moi rd rs sec
  | .sub moi rd rs sec => encodeWith 4 moi rd rs sec
  | .sbb moi rd rs sec => encodeWith 5 moi rd rs sec
  | .add moi rd rs sec => encodeWith 6 moi rd rs sec
  | .adc moi rd rs sec => encodeWith 7 moi rd rs sec
  | .xor moi rd rs sec => encodeWith 8 moi rd rs sec
  | .or moi rd rs sec => encodeWith 9 moi rd rs sec
  | .store moi rd rs sec => encodeWith 10 moi rd rs sec
  | .shl moi rd rs sec => encodeWith 11 moi rd rs sec
  | .shr moi rd rs sec => encodeWith 11 moi rd rs sec
  | .and moi rd rs sec => encodeWith 12 moi rd rs sec
  | .halt moi rd rs sec => encodeWith 13 moi rd rs sec
  | .mul rd rs sec => encodeWith 14 false rd rs sec
  | .muls rd rs sec => encodeWith 14 true rd rs sec
  | .mulh rd rs sec => encodeWith 15 false rd rs sec
  | .mulx rd rs sec => encodeWith 15 true rd rs sec

/-- A row of R64's table: a word `w` is this instruction exactly when `w &&& mask = pattern`. -/
structure OpcodeRow where
  mnemonic : String
  pattern : Word
  mask : Word
  deriving DecidableEq, Repr

/-- The 19 rows of R64. -/
def opcodeRows : List OpcodeRow :=
  [⟨"move", 0x00000000, 0x000F0000⟩, ⟨"jump", 0x00010000, 0x000F0000⟩, ⟨"load", 0x00020000, 0x000F0000⟩,
   ⟨"exchange", 0x00030000, 0x000F0000⟩, ⟨"sub", 0x00040000, 0x000F0000⟩, ⟨"sbb", 0x00050000, 0x000F0000⟩,
   ⟨"add", 0x00060000, 0x000F0000⟩, ⟨"adc", 0x00070000, 0x000F0000⟩, ⟨"xor", 0x00080000, 0x000F0000⟩,
   ⟨"or", 0x00090000, 0x000F0000⟩, ⟨"store", 0x000A0000, 0x000F0000⟩, ⟨"shl", 0x000B0000, 0x000F8000⟩,
   ⟨"shr", 0x000B8000, 0x000F8000⟩, ⟨"and", 0x000C0000, 0x000F0000⟩, ⟨"halt", 0x000D0000, 0x000F0000⟩,
   ⟨"mul", 0x000E0000, 0x800F0000⟩, ⟨"muls", 0x800E0000, 0x800F0000⟩, ⟨"mulh", 0x000F0000, 0x800F0000⟩,
   ⟨"mulx", 0x800F0000, 0x800F0000⟩]

/-- The row's name of an instruction (the spec's mnemonic). -/
def mnemonicOf : Instr → String
  | .move _ _ _ _ => "move"
  | .jump _ _ _ _ _ => "jump"
  | .load _ _ _ _ => "load"
  | .exchange _ _ _ _ => "exchange"
  | .sub _ _ _ _ => "sub"
  | .sbb _ _ _ _ => "sbb"
  | .add _ _ _ _ => "add"
  | .adc _ _ _ _ => "adc"
  | .xor _ _ _ _ => "xor"
  | .or _ _ _ _ => "or"
  | .store _ _ _ _ => "store"
  | .shl _ _ _ _ => "shl"
  | .shr _ _ _ _ => "shr"
  | .and _ _ _ _ => "and"
  | .halt _ _ _ _ => "halt"
  | .mul _ _ _ => "mul"
  | .muls _ _ _ => "muls"
  | .mulh _ _ _ => "mulh"
  | .mulx _ _ _ => "mulx"

end Sys2Proof
end

