-- ==== Sys2Proof/Machine/Bits.lean ====
section
/-! DEFINITION. Words and halves: normalization (10_state.md R11) and the slices of 00_scope.md R7. -/

namespace Sys2Proof.Machine

/-- `normalize(w)`: the four literal bit patterns become 0, every other word passes unchanged (R11). -/
def normalize (w : Word) : Word :=
  if w = 0x00000000 ∨ w = 0x40000000 ∨ w = 0x80000000 ∨ w = 0xC0000000 then 0 else w

/-- `lo16(w)`. -/
def lo16 (w : Word) : Half := BitVec.ofNat 16 (w.toNat % 65536)

/-- `hi16(w) = w[31:16]`. -/
def hi16 (w : Word) : Half := BitVec.ofNat 16 (w.toNat / 65536)

/-- `zext_32(h)`. -/
def zext32 (h : Half) : Word := BitVec.ofNat 32 h.toNat

/-- `s16(h)`: the signed value of a half in 16-bit two's complement. -/
def s16 (h : Half) : Int :=
  if h.toNat < 32768 then (h.toNat : Int) else (h.toNat : Int) - 65536

/-- `h[15]`. -/
def bit15 (h : Half) : Bool := decide (32768 ≤ h.toNat)

/-- `w[31]`. -/
def bit31 (w : Word) : Bool := decide (2147483648 ≤ w.toNat)

/-- `(hi << 16) | lo`, the merged word of move and exchange (42_move_exchange.md). -/
def mergeHalves (hi lo : Half) : Word := BitVec.ofNat 32 (hi.toNat * 65536 + lo.toNat)

end Sys2Proof.Machine
end

