-- ==== Sys2Proof/Config.lean ====
section
/-! DEFINITION. What an instance is built with: the construction parameters of 00_scope.md R5, the
named alternatives of R6, hook entries (20_memory.md R36), and the one free value, a device's answer. -/

namespace Sys2Proof

/-- Capability type of a core (00_scope.md R5, 40_cycle_engine.md R79). -/
inductive Capability where
  | basic
  | standard
  | multiply
  deriving DecidableEq, Repr

/-- `SHIFT_DIR_SOURCE` (R6, D1): which bit 15 selects the direction of opcode 11. -/
inductive ShiftDirSource where
  | field
  | resolved
  deriving DecidableEq, Repr

/-- `MERGE_FLAG_VIEW` (R6, D2): which bits of a merged word move and exchange test. -/
inductive MergeFlagView where
  | low16
  | word32
  deriving DecidableEq, Repr

/-- `MUL_MOI_POLARITY` (R6, D3): `plain` is MOI=0 for mul and mulh, `reversed` the reverse. -/
inductive MulMoiPolarity where
  | plain
  | reversed
  deriving DecidableEq, Repr

/-- `MULX_SIGNED_OPERAND` (R6, D4): which operand of mulx is the signed one. -/
inductive MulxSignedOperand where
  | secondary
  | primary
  deriving DecidableEq, Repr

/-- `SHR_KIND` (R6, D6). -/
inductive ShrKind where
  | logical
  | arithmetic
  deriving DecidableEq, Repr

/-- `FLUSH_POINTS` (R6, C1): `everyTurn` is the spec's choice, `endOfCycle` the reading of scenario E
that 90_conflicts.md C1 rejects. -/
inductive FlushPoints where
  | everyTurn
  | endOfCycle
  deriving DecidableEq, Repr

/-- The six named alternatives of R6. The defaults of the fields are the spec's own choices. -/
structure Readings where
  shiftDir : ShiftDirSource := .field
  mergeView : MergeFlagView := .low16
  mulPolarity : MulMoiPolarity := .plain
  mulxSigned : MulxSignedOperand := .secondary
  shrKind : ShrKind := .logical
  flushPoints : FlushPoints := .everyTurn
  deriving DecidableEq, Repr

/-- The construction parameters of R5, constant from construction to halt (D23). `caps` lists
`CAP[0]` to `CAP[NCORES-1]`. `IMAGE` and the hook lists are arguments of `boot` and `construct`
(Machine/HostInterface.lean) and live on in State. -/
structure Params where
  rows : Nat
  rowSize : Nat
  caps : List Capability
  mulAllow : Bool
  traceEn : Bool
  traceCap : Nat
  readings : Readings
  deriving DecidableEq, Repr

/-- A hook entry `(base, length, device)`: naturals, nothing wraps (20_memory.md R36, D15). `device`
is a name for the device behind the hook. -/
structure Hook where
  base : Nat
  length : Nat
  device : Nat
  deriving DecidableEq, Repr

/-- FREE VALUE. The word a read-hook device answers when the queue `State.answers` is empty: "may
return any 32-bit word, may differ between two reads of the same address" (20_memory.md R39). The
arguments are the number of answers given so far, the device and the absolute address. -/
opaque Config.deviceAnswer : Nat → Nat → Nat → Word

end Sys2Proof
end

