-- ==== Sys2Proof/Machine/Parameters.lean ====
section
/-! DEFINITION. The derived parameters of 00_scope.md R5, their ranges, and the parameter values that
State.reset takes (log entry 2). -/

namespace Sys2Proof.Machine

/-- `MEM_SIZE = ROWS * ROW_SIZE` (R5, 20_memory.md R31). -/
def memSize (p : Params) : Nat := p.rows * p.rowSize

/-- `NCORES` (R5). -/
def ncores (p : Params) : Nat := p.caps.length

/-- The ranges of R5: `MEM_SIZE` 1 to 65536 (D10), `NCORES` 1 to 50 (D11). -/
def paramsInRange (p : Params) : Bool :=
  decide (1 ≤ memSize p ∧ memSize p ≤ 65536 ∧ 1 ≤ ncores p ∧ ncores p ≤ 50)

/-- DESIGN CHOICE (log entry 2): the parameters of State.reset. 65536 words, so that every 16-bit address
is storage; one core that can multiply; no trace; the readings the spec chose (R6). -/
def resetParams : Params :=
  { rows := 256, rowSize := 256, caps := [.multiply], mulAllow := false,
    traceEn := false, traceCap := 0, readings := {} }

end Sys2Proof.Machine
end

