-- ==== Sys2Proof/Machine/State.lean ====
section
/-! DEFINITION. The state of an instance (10_state.md), plain data, and its value after reset (R23). -/

namespace Sys2Proof.Machine

/-- The four flags, "4 independent booleans" (10_state.md R16, D13). -/
structure Flags where
  z : Bool
  s : Bool
  c : Bool
  v : Bool
  deriving DecidableEq, Repr

/-- The scheduled memory slot (10_state.md R19): a computed address and a register index. -/
inductive Slot where
  | idle
  | read (addr : Half) (reg : Reg)
  | write (addr : Half) (reg : Reg)
  deriving DecidableEq, Repr

/-- One trace entry `(instr, fetch_addr, rd, prim, sec)` (10_state.md R20, D16). -/
structure TraceEntry where
  instr : Word
  fetchAddr : Word
  rd : Reg
  prim : Word
  sec : Word
  deriving DecidableEq, Repr

/-- A call of a device behind a hook, in the order of the calls: the observable output of the instance
(20_memory.md R40 for writes; reads are recorded beside them, log entry 8). `hook` is the index in its list. -/
inductive DeviceEvent where
  | readCall (hook : Nat) (addr : Nat) (answer : Word)
  | writeCall (hook : Nat) (val : Word) (offset : Nat)
  deriving DecidableEq, Repr

/-- One storage cell: word address and word (20_memory.md R30: the word is the smallest unit). -/
abbrev Cell := Nat × Word

/-- Storage as the list of its non-zero cells, addresses strictly rising (log entries 4 and 5). -/
abbrev Memory := List Cell

/-- The canonical form of storage: addresses strictly rising, no listed cell 0, which is what an unlisted
cell reads as (10_state.md R23: the image is zero-padded). -/
abbrev Memory.wf (m : Memory) : Prop :=
  m.Pairwise (fun a b => a.1 < b.1) ∧ ∀ c ∈ m, c.2 ≠ 0

/-- All state of the instance, one copy of each piece shared by all cores (10_state.md). -/
structure State where
  /-- Construction parameters, constant (00_scope.md R5, D23). -/
  params : Params
  /-- x[1] to x[31] (R12); entry i holds x[i+1]. -/
  regs : Vector Word 31
  /-- The program counter, a word address (R15). -/
  pc : Word
  /-- Z, S, C, V (R16). -/
  flags : Flags
  /-- Running or Halted (R18). -/
  halted : Bool
  /-- The scheduled memory slot (R19). -/
  slot : Slot
  /-- MODEL's own: the core whose turn is next (40_cycle_engine.md R70's loop variable; log entry 1). -/
  core : Nat
  /-- MODEL's own: the host may still load the image, which it does at most once, after construction and before the
  first cycle (70_reset_and_hazards.md R192, R196; log entry 39). -/
  imageLoadable : Bool
  /-- Storage (20_memory.md R31). -/
  mem : Memory
  /-- The read-hook list, registration order (20_memory.md R36). -/
  rhooks : List Hook
  /-- The write-hook list, registration order (20_memory.md R36). -/
  whooks : List Hook
  /-- The trace buffer, oldest entry first (R20). -/
  trace : List TraceEntry
  /-- MODEL's own: the answers devices are going to give, next one first (20_memory.md R39; log entry 6). -/
  answers : List Word
  /-- MODEL's own: how many answers devices have given (log entry 6). -/
  draws : Nat
  /-- The device calls so far, oldest first (20_memory.md R40). -/
  events : List DeviceEvent
  deriving DecidableEq, Repr

/-- Why the machine stops with a fault: NEVER. "The core raises no exception, ever" (60_exceptions.md R170),
so there is no constructor and nobody can raise one. -/
inductive Fault where
  deriving DecidableEq, Repr

/-- Why a step is refused. -/
inductive Refusal where
  /-- Raised by `exec` for an instruction without a meaning; safe. No instruction is refused in this model. -/
  | notModelled (mnemonic : String)
  /-- Raised by `step` (and `runCycle`) when the construction parameters or the hook lists lie outside the
  ranges of R5 ("refusal applies only to parameter values outside the ranges", 60_exceptions.md R170); safe. -/
  | configurationOutOfRange
  /-- Raised by `step` (and `runCycle`) when `core` is no index of the roster, which no run reaches
  (log entry 37); safe. -/
  | noSuchCore
  /-- Raised by `runCycle` when a cycle is requested between two turns of a cycle: the host "has no move between two
  turns of one cycle" (70_reset_and_hazards.md R196; log entry 39); safe. -/
  | withinCycle
  deriving DecidableEq, Repr

/-- The instance right after construction, no image loaded and no hooks (10_state.md R23, decision D12; the
parameters are log entry 2's). -/
def State.reset : State :=
  { params := resetParams
    regs := Vector.replicate 31 0
    pc := 0
    flags := ⟨false, false, false, false⟩
    halted := false
    slot := .idle
    core := 0
    imageLoadable := true
    mem := []
    rhooks := []
    whooks := []
    trace := []
    answers := []
    draws := 0
    events := [] }

end Sys2Proof.Machine
end

