-- ==== Sys2Proof/Machine/Flags.lean ====
section
/-! DEFINITION. Proposed flag updates, the merge flag rule and the condition table (41_alu.md). -/

namespace Sys2Proof.Machine

/-- A proposed flag update (R90): `none` where the function produces no value for that flag. -/
structure FlagUpdate where
  z : Option Bool
  s : Option Bool
  c : Option Bool
  v : Option Bool
  deriving DecidableEq, Repr

/-- The flags after a committed update; an unproposed flag keeps its value. -/
def applyUpdate (u : FlagUpdate) (f : Flags) : Flags :=
  ⟨u.z.getD f.z, u.s.getD f.s, u.c.getD f.c, u.v.getD f.v⟩

/-- Zero and Sign of a half, nothing else: the shifts (R99, R100). -/
def zeroSign (r : Half) : FlagUpdate :=
  ⟨some (decide (r = 0)), some (bit15 r), none, none⟩

/-- Zero, Sign, Carry cleared, nothing for Overflow: and, or, xor (R102, D19). -/
def logicFlags (r : Half) : FlagUpdate :=
  ⟨some (decide (r = 0)), some (bit15 r), some false, none⟩

/-- The merge flag rule of move and exchange on the merged word before normalization (R103, D2): Zero and
Sign from the low half, or under `word32` from all 32 bits and bit 31 (42_move_exchange.md R110 (f)). -/
def mergeFlags (view : MergeFlagView) (m : Word) : FlagUpdate :=
  match view with
  | .low16 => ⟨some (decide (lo16 m = 0)), some (bit15 (lo16 m)), some false, none⟩
  | .word32 => ⟨some (decide (m = 0)), some (bit31 m), some false, none⟩

/-- Entries 0 to 7 of the condition table (R101). -/
def conditionBase (f : Flags) (i : Nat) : Bool :=
  match i with
  | 0 => true
  | 1 => f.c || f.z
  | 2 => f.s != f.v
  | 3 => f.z || (f.s != f.v)
  | 4 => f.s
  | 5 => f.z
  | 6 => f.v
  | _ => f.c

/-- `condition_table(Z, S, C, V)[i]`: "Entries 8–15 = logical negation of entries 0–7" (R101). -/
def conditionTable (f : Flags) (i : Cond) : Bool :=
  if i.val < 8 then conditionBase f i.val else !conditionBase f (i.val - 8)

end Sys2Proof.Machine
end

