-- ==== Sys2Proof/Machine/Alu.lean ====
section
/-! DEFINITION. The ALU: pure functions on halves (41_alu.md). -/

namespace Sys2Proof.Machine

/-- A result and a proposed flag update (R90). -/
structure AluOut where
  value : Half
  flags : FlagUpdate
  deriving DecidableEq, Repr

/-- `addc(a, b, cin)`, the one adder (R91). -/
def addc (a b : Half) (cin : Bool) : AluOut :=
  let sum := a.toNat + b.toNat + cin.toNat
  let r : Half := BitVec.ofNat 16 sum
  ⟨r, ⟨some (decide (r = 0)), some (bit15 r), some (decide (sum > 65535)),
    some (decide (bit15 a = bit15 b ∧ bit15 r ≠ bit15 a))⟩⟩

/-- `~h = 65535 - h` (00_scope.md R7). -/
def complement16 (h : Half) : Half := BitVec.ofNat 16 (65535 - h.toNat)

/-- The Carry of an adder output inverted: the borrow convention (R92). -/
def invertCarry (o : AluOut) : AluOut :=
  ⟨o.value, { o.flags with c := o.flags.c.map (!·) }⟩

/-- `sub(a, b)`, a the minuend (R92). -/
def aluSub (a b : Half) : AluOut := invertCarry (addc a (complement16 b) true)

/-- `sbb(a, b, C)` (R93, D7). -/
def aluSbb (a b : Half) (c : Bool) : AluOut := invertCarry (addc a (complement16 b) (!c))

/-- `add(a, b) = addc(a, b, 0)` (R91). -/
def aluAdd (a b : Half) : AluOut := addc a b false

/-- `adc(a, b, C)` (R94). -/
def aluAdc (a b : Half) (c : Bool) : AluOut := addc a b c

/-- `mul(a, b)` (R95). -/
def aluMul (a b : Half) : Half := BitVec.ofNat 16 (a.toNat * b.toNat % 65536)

/-- `muls(a, b)`: bits 31 to 16 of the signed product; `/` on integers by a positive divisor is the floor
(R96). -/
def aluMuls (a b : Half) : Half := BitVec.ofInt 16 (s16 a * s16 b / 65536)

/-- `mulh(a, b)` (R97). -/
def aluMulh (a b : Half) : Half := BitVec.ofNat 16 (a.toNat * b.toNat / 65536)

/-- `mulx(a, b)`: a unsigned, b signed (R98, D22). -/
def aluMulx (a b : Half) : Half := BitVec.ofInt 16 ((a.toNat : Int) * s16 b / 65536)

/-- `shl(a, n)` (R99). -/
def aluShl (a : Half) (n : Word) : AluOut :=
  let r : Half := BitVec.ofNat 16 (a.toNat * 2 ^ (n.toNat % 16) % 65536)
  ⟨r, zeroSign r⟩

/-- `shr(a, n)`: logical (R100, D6), or with bit 15 replicated under `SHR_KIND = arithmetic` (R6). -/
def aluShr (kind : ShrKind) (a : Half) (n : Word) : AluOut :=
  let r : Half :=
    match kind with
    | .logical => BitVec.ofNat 16 (a.toNat / 2 ^ (n.toNat % 16))
    | .arithmetic => BitVec.ofInt 16 (s16 a / 2 ^ (n.toNat % 16))
  ⟨r, zeroSign r⟩

/-- `and(a, b)` (R102). -/
def aluAnd (a b : Half) : AluOut := ⟨a &&& b, logicFlags (a &&& b)⟩

/-- `or(a, b)` (R102). -/
def aluOr (a b : Half) : AluOut := ⟨a ||| b, logicFlags (a ||| b)⟩

/-- `xor(a, b)` (R102). -/
def aluXor (a b : Half) : AluOut := ⟨a ^^^ b, logicFlags (a ^^^ b)⟩

end Sys2Proof.Machine
end

