-- ==== Sys2Proof/Machine/Ops.lean ====
section
/-! DEFINITION. The named operations over registers, memory, hooks, the slot, the trace and the turn
(10_state.md, 20_memory.md, 40_cycle_engine.md). The hardware raises no exception and has no return from
one (60_exceptions.md R170, R174, R175), so there is no operation that takes one. -/

namespace Sys2Proof.Machine

/-! ### Registers -/

/-- `x[i]` (10_state.md R13): 0 for index 0 and above 31. -/
def readReg (s : State) (i : Nat) : Word :=
  if h : 1 ≤ i ∧ i ≤ 31 then s.regs[i - 1]'(by omega) else 0

/-- The register file after `x[i] <- v` (10_state.md R14): normalized, discarded for index 0 and above 31. -/
def regsAfterWrite (regs : Vector Word 31) (i : Nat) (v : Word) : Vector Word 31 :=
  if h : 1 ≤ i ∧ i ≤ 31 then regs.set (i - 1) (normalize v) (by omega) else regs

/-- `x[i] <- v` (R14). -/
def writeReg (i : Nat) (v : Word) (s : State) : State :=
  { s with regs := regsAfterWrite s.regs i v }

/-! ### Program counter, flags, halt, slot -/

/-- The default advance (40_cycle_engine.md R75). -/
def advance (s : State) : State := { s with pc := s.pc + 1 }

/-- `pc <- target` (46_control.md R150). -/
def redirect (target : Word) (s : State) : State := { s with pc := target }

/-- "If IP ≥ memory size, reset IP to 0" (40_cycle_engine.md R71 step 1). -/
def wrapPc (s : State) : State :=
  { s with pc := if memSize s.params ≤ s.pc.toNat then 0 else s.pc }

/-- Commit a proposed flag update when the instruction requests it (10_state.md R16). -/
def commitFlags (request : Bool) (u : FlagUpdate) (s : State) : State :=
  { s with flags := if request then applyUpdate u s.flags else s.flags }

/-- `halted <- true` (46_control.md R155). -/
def setHalted (s : State) : State := { s with halted := true }

/-- Arm or clear the scheduled slot (10_state.md R19). -/
def setSlot (slot : Slot) (s : State) : State := { s with slot := slot }

/-! ### Storage -/

/-- The word in a cell; an unlisted cell holds 0 (10_state.md R23). -/
def cellAt : Memory → Nat → Word
  | [], _ => 0
  | (a, w) :: rest, b => if a = b then w else cellAt rest b

/-- Storage with cell `a` holding `v`, in canonical form: 0 removes the entry. -/
def cellSet : Memory → Nat → Word → Memory
  | [], a, v => if v = 0 then [] else [(a, v)]
  | (b, w) :: rest, a, v =>
    if a < b then (if v = 0 then (b, w) :: rest else (a, v) :: (b, w) :: rest)
    else if a = b then (if v = 0 then rest else (a, v) :: rest)
    else (b, w) :: cellSet rest a v

/-! ### Hooks and the two memory primitives -/

/-- An address is inside a hook: "inclusive range [addr, addr+length]" (20_memory.md R36). -/
def covers (addr : Nat) (h : Hook) : Bool :=
  decide (h.base ≤ addr ∧ addr ≤ h.base + h.length)

/-- The first read hook that covers the address, with its index (20_memory.md R37). -/
def firstReadHook (s : State) (addr : Nat) : Option (Hook × Nat) :=
  s.rhooks.zipIdx.find? (fun p => covers addr p.1)

/-- Every write hook that covers the address, with its index, in registration order (20_memory.md R38). -/
def matchingWriteHooks (s : State) (addr : Nat) : List (Hook × Nat) :=
  s.whooks.zipIdx.filter (fun p => covers addr p.1)

/-- The word the device behind a read hook answers (20_memory.md R39): the next of the queued answers, or
the free value when none is queued (log entry 6). -/
def deviceAnswerAt (s : State) (h : Hook) (addr : Nat) : Word :=
  match s.answers with
  | w :: _ => w
  | [] => Config.deviceAnswer s.draws h.device addr

/-- The word of `MemRead(addr, 1)` (20_memory.md R37). A hook's answer is not normalized. -/
def memReadWord (s : State) (addr : Nat) : Word :=
  match firstReadHook s addr with
  | some (h, _) => deviceAnswerAt s h addr
  | none => if addr < memSize s.params then normalize (cellAt s.mem addr) else 0

/-- The state after `MemRead(addr, 1)`: only the device of a matching hook sees it (20_memory.md R35, R39). -/
def memReadEffect (addr : Nat) (s : State) : State :=
  match firstReadHook s addr with
  | some (h, i) =>
    { s with
      answers := s.answers.tail
      draws := s.draws + 1
      events := s.events ++ [.readCall i addr (deviceAnswerAt s h addr)] }
  | none => s

/-- `MemWrite(addr, 1, v)` (20_memory.md R38). -/
def memWrite (addr : Nat) (v : Word) (s : State) : State :=
  match matchingWriteHooks s addr with
  | [] => if addr < memSize s.params then { s with mem := cellSet s.mem addr (normalize v) } else s
  | hit :: more =>
    { s with
      events := s.events ++ (hit :: more).map (fun p => .writeCall p.2 v (addr - p.1.base)) }

/-! ### The flush of the slot -/

/-- `flush()` (40_cycle_engine.md R77): perform the scheduled access and clear the slot. -/
def flush (s : State) : State :=
  match s.slot with
  | .idle => s
  | .read addr reg =>
    setSlot .idle (writeReg reg.val (memReadWord s addr.toNat) (memReadEffect addr.toNat s))
  | .write addr reg => setSlot .idle (memWrite addr.toNat (readReg s reg.val) s)

/-! ### Operand values used by the trace and the meanings -/

/-- The resolved, normalized secondary operand (30_encoding.md R56). -/
def secValue (s : State) (sec : Operand) : Word :=
  normalize (match sec with
    | .imm field => zext32 field
    | .reg field => readReg s field.toNat)

/-! ### The turn around the dispatch -/

/-- The trace entry of the word fetched from `pc` (10_state.md R20, D16). -/
def traceEntryOf (w : Word) (s : State) : TraceEntry :=
  ⟨w, s.pc, rdOf w, readReg s (rsOf w).val, secValue s (operandOf w)⟩

/-- Append the fetch record when tracing is on and the buffer is not full (40_cycle_engine.md R73). -/
def traceFetch (w : Word) (s : State) : State :=
  { s with
    trace :=
      if s.params.traceEn ∧ s.trace.length < s.params.traceCap then s.trace ++ [traceEntryOf w s]
      else s.trace }

/-- The flush before the first turn of a cycle (40_cycle_engine.md R70). -/
def beginTurn (s : State) : State :=
  if s.core = 0 then flush s else s

/-- The word the next turn fetches, `pc` being already wrapped (40_cycle_engine.md R72). -/
def fetchWord (s : State) : Word := memReadWord s s.pc.toNat

/-- The state at dispatch: the fetch has been seen by a device if the address is hooked, and traced. -/
def afterFetch (s : State) : State :=
  traceFetch (fetchWord s) (memReadEffect s.pc.toNat s)

/-- The cycle ends with this turn: the last core has had its turn, or the instance has halted
(40_cycle_engine.md R70, R76). -/
def cycleEnds (s : State) : Bool :=
  s.halted || decide (ncores s.params ≤ s.core + 1)

/-- The flush that follows a turn (40_cycle_engine.md R70); under `FLUSH_POINTS = endOfCycle` only the turn
that ends the cycle is followed by one (00_scope.md R6, log entry 14). -/
def flushAfterTurn (s : State) : State :=
  match s.params.readings.flushPoints with
  | .everyTurn => flush s
  | .endOfCycle => if cycleEnds s then flush s else s

/-- What follows a dispatch: the flush, and the next core's turn, or core 0's of the next cycle. Once a turn has been
taken the host can load no image any more (70_reset_and_hazards.md R196, log entry 39). -/
def endTurn (s : State) : State :=
  { flushAfterTurn s with core := if cycleEnds s then 0 else s.core + 1, imageLoadable := false }

/-- The outcome with a function applied to its next state. -/
def mapNext (f : State → State) (o : Host.Outcome State Fault Refusal) :
    Host.Outcome State Fault Refusal :=
  match o with
  | .next s => .next (f s)
  | .fault r => .fault r
  | .refused r => .refused r

/-- The configuration is one the spec describes (00_scope.md R5): parameters in range and at most 32 hooks
in each list. -/
def configInRange (s : State) : Bool :=
  paramsInRange s.params && decide (s.rhooks.length ≤ 32 ∧ s.whooks.length ≤ 32)

/-- Why a state is refused before anything runs (60_exceptions.md R170; log entries 19, 20, 22, 37). -/
def refusalOf (s : State) : Option Refusal :=
  if configInRange s then
    (if s.core < ncores s.params then none else some .noSuchCore)
  else some .configurationOutOfRange

end Sys2Proof.Machine
end

