-- ==== Sys2Proof/Machine/Operands.lean ====
section
/-! DEFINITION. Operand forms shared by the meanings: the primary value, the effective address, the
writing back of a result, the multiply gate and the shift direction. -/

namespace Sys2Proof.Machine

/-- `prim = x[rs]` (30_encoding.md R54). -/
def primValue (s : State) (rs : Reg) : Word := readReg s rs.val

/-- `ea = (prim + sec) mod 65536`, the one addressing mode (47_load_store.md R160). -/
def effectiveAddress (s : State) (rs : Reg) (sec : Operand) : Half :=
  BitVec.ofNat 16 (((primValue s rs).toNat + (secValue s sec).toNat) % 65536)

/-- The end of an ALU instruction: flags when requested, the zero-extended result to `x[rd]`, `pc + 1`
(41_alu.md R90, 43_arithmetic.md, 44_logic_shift.md). -/
def finishAlu (moi : Bool) (rd : Reg) (out : AluOut) (s : State) : State :=
  advance (writeReg rd.val (zext32 out.value) (commitFlags moi out.flags s))

/-- The end of a merge instruction: flags when requested, the merged word to `x[rd]`, `pc + 1`
(42_move_exchange.md R110, R111). -/
def finishMerge (moi : Bool) (rd : Reg) (m : Word) (s : State) : State :=
  advance (writeReg rd.val m (commitFlags moi (mergeFlags s.params.readings.mergeView m) s))

/-- `can_multiply(k)` (40_cycle_engine.md R79). -/
def canMultiply (p : Params) (k : Nat) : Bool :=
  match p.caps.getD k .basic with
  | .basic => false
  | .standard => p.mulAllow
  | .multiply => true

/-- The end of a multiply: the result to `x[rd]` behind the gate, `pc + 1`, no flag (45_multiply.md). -/
def finishMul (rd : Reg) (value : Half) (s : State) : State :=
  advance (if canMultiply s.params s.core then writeReg rd.val (zext32 value) s else s)

/-- The direction of a shift: the direction the instruction's own bit 15 gives (`byField`), or under
`SHIFT_DIR_SOURCE = resolved` bit 15 of the resolved operand, 1 for right (00_scope.md R6, D1). -/
def shiftsRight (s : State) (byField : Bool) (sec : Operand) : Bool :=
  match s.params.readings.shiftDir with
  | .field => byField
  | .resolved => bit15 (lo16 (secValue s sec))

/-- A shift in the direction given (44_logic_shift.md R133, R134). -/
def shiftOut (s : State) (right : Bool) (rs : Reg) (sec : Operand) : AluOut :=
  if right then aluShr s.params.readings.shrKind (lo16 (primValue s rs)) (secValue s sec)
  else aluShl (lo16 (primValue s rs)) (secValue s sec)

/-- The product low half of `x[rs]` and `sec` (R140). -/
def productLow (s : State) (rs : Reg) (sec : Operand) : Half :=
  aluMul (lo16 (primValue s rs)) (lo16 (secValue s sec))

/-- The signed product's high half (R141). -/
def productSignedHigh (s : State) (rs : Reg) (sec : Operand) : Half :=
  aluMuls (lo16 (primValue s rs)) (lo16 (secValue s sec))

/-- The unsigned product's high half (R142). -/
def productHigh (s : State) (rs : Reg) (sec : Operand) : Half :=
  aluMulh (lo16 (primValue s rs)) (lo16 (secValue s sec))

/-- The mixed product's high half (R143, D4): A, unsigned, is the primary source and B, signed, the secondary
operand; under `MULX_SIGNED_OPERAND = primary` the two swap roles (R6). -/
def productMixedHigh (s : State) (rs : Reg) (sec : Operand) : Half :=
  match s.params.readings.mulxSigned with
  | .secondary => aluMulx (lo16 (primValue s rs)) (lo16 (secValue s sec))
  | .primary => aluMulx (lo16 (secValue s sec)) (lo16 (primValue s rs))

/-- The variant a multiply row executes: its own under `plain`, the other one of its opcode under
`MUL_MOI_POLARITY = reversed` (00_scope.md R6, D3). -/
def byPolarity (p : Params) (own other : Half) : Half :=
  match p.readings.mulPolarity with
  | .plain => own
  | .reversed => other

end Sys2Proof.Machine
end

