-- ==== Sys2Proof/Machine/Arithmetic.lean ====
section
/-! DEFINITION. sub, sbb, add, adc (43_arithmetic.md). -/

namespace Sys2Proof.Machine

/-- sub (R120): `sec - prim`, the secondary operand is the minuend. -/
def execSub (moi : Bool) (rd rs : Reg) (sec : Operand) (s : State) :
    Host.Outcome State Fault Refusal :=
  .next (finishAlu moi rd (aluSub (lo16 (secValue s sec)) (lo16 (primValue s rs))) s)

/-- sbb (R121): `sec - prim - C`; reads C whatever `moi` is. -/
def execSbb (moi : Bool) (rd rs : Reg) (sec : Operand) (s : State) :
    Host.Outcome State Fault Refusal :=
  .next (finishAlu moi rd (aluSbb (lo16 (secValue s sec)) (lo16 (primValue s rs)) s.flags.c) s)

/-- add (R122). -/
def execAdd (moi : Bool) (rd rs : Reg) (sec : Operand) (s : State) :
    Host.Outcome State Fault Refusal :=
  .next (finishAlu moi rd (aluAdd (lo16 (primValue s rs)) (lo16 (secValue s sec))) s)

/-- adc (R123): reads C whatever `moi` is. -/
def execAdc (moi : Bool) (rd rs : Reg) (sec : Operand) (s : State) :
    Host.Outcome State Fault Refusal :=
  .next (finishAlu moi rd (aluAdc (lo16 (primValue s rs)) (lo16 (secValue s sec)) s.flags.c) s)

end Sys2Proof.Machine
end

