-- ==== Sys2Proof/Machine/Control.lean ====
section
/-! DEFINITION. jump, plain and synchronized, and halt (46_control.md). -/

namespace Sys2Proof.Machine

/-- The core whose turn it is is the last core, `k == NCORES - 1` (R150). -/
def onLastCore (s : State) : Bool := decide (s.core + 1 = ncores s.params)

/-- jump (R150): not taken, `pc + 1`; taken and redirecting, link then target (both read before); taken and
synchronized on the last core, nothing at all. -/
def execJump (_moi : Bool) (rd : Reg) (sync : Bool) (cond : Cond) (sec : Operand) (s : State) :
    Host.Outcome State Fault Refusal :=
  if conditionTable s.flags cond then
    (if sync && onLastCore s then .next s
     else .next (redirect (secValue s sec) (writeReg rd.val (s.pc + 1) s)))
  else .next (advance s)

/-- halt (R155): every field is ignored. -/
def execHalt (_moi : Bool) (_rd _rs : Reg) (_sec : Operand) (s : State) :
    Host.Outcome State Fault Refusal :=
  .next (advance (setHalted s))

end Sys2Proof.Machine
end

