-- ==== Sys2Proof/Machine/LoadStore.lean ====
section
/-! DEFINITION. load and store: they arm the scheduled slot; the flush that ends the turn performs the
access (47_load_store.md, 40_cycle_engine.md R77). -/

namespace Sys2Proof.Machine

/-- load (R161). -/
def execLoad (_moi : Bool) (rd rs : Reg) (sec : Operand) (s : State) :
    Host.Outcome State Fault Refusal :=
  .next (advance (setSlot (.read (effectiveAddress s rs sec) rd) s))

/-- store (R162). -/
def execStore (_moi : Bool) (rd rs : Reg) (sec : Operand) (s : State) :
    Host.Outcome State Fault Refusal :=
  .next (advance (setSlot (.write (effectiveAddress s rs sec) rd) s))

end Sys2Proof.Machine
end

