-- ==== Sys2Proof/Machine/LogicShift.lean ====
section
/-! DEFINITION. xor, or, and, shl, shr (44_logic_shift.md). -/

namespace Sys2Proof.Machine

/-- xor (R130). -/
def execXor (moi : Bool) (rd rs : Reg) (sec : Operand) (s : State) :
    Host.Outcome State Fault Refusal :=
  .next (finishAlu moi rd (aluXor (lo16 (primValue s rs)) (lo16 (secValue s sec))) s)

/-- or (R131). -/
def execOr (moi : Bool) (rd rs : Reg) (sec : Operand) (s : State) :
    Host.Outcome State Fault Refusal :=
  .next (finishAlu moi rd (aluOr (lo16 (primValue s rs)) (lo16 (secValue s sec))) s)

/-- and (R132). -/
def execAnd (moi : Bool) (rd rs : Reg) (sec : Operand) (s : State) :
    Host.Outcome State Fault Refusal :=
  .next (finishAlu moi rd (aluAnd (lo16 (primValue s rs)) (lo16 (secValue s sec))) s)

/-- shl (R133). -/
def execShl (moi : Bool) (rd rs : Reg) (sec : Operand) (s : State) :
    Host.Outcome State Fault Refusal :=
  .next (finishAlu moi rd (shiftOut s (shiftsRight s false sec) rs sec) s)

/-- shr (R134). -/
def execShr (moi : Bool) (rd rs : Reg) (sec : Operand) (s : State) :
    Host.Outcome State Fault Refusal :=
  .next (finishAlu moi rd (shiftOut s (shiftsRight s true sec) rs sec) s)

end Sys2Proof.Machine
end

