-- ==== Sys2Proof/Machine/MoveExchange.lean ====
section
/-! DEFINITION. move and exchange (42_move_exchange.md). -/

namespace Sys2Proof.Machine

/-- move (R110): high half of `x[rs]`, low half of `sec`. -/
def execMove (moi : Bool) (rd rs : Reg) (sec : Operand) (s : State) :
    Host.Outcome State Fault Refusal :=
  .next (finishMerge moi rd (mergeHalves (hi16 (primValue s rs)) (lo16 (secValue s sec))) s)

/-- exchange (R111): low half of `x[rs]` moves up, high half of `sec` moves down. -/
def execExchange (moi : Bool) (rd rs : Reg) (sec : Operand) (s : State) :
    Host.Outcome State Fault Refusal :=
  .next (finishMerge moi rd (mergeHalves (lo16 (primValue s rs)) (hi16 (secValue s sec))) s)

end Sys2Proof.Machine
end

