-- ==== Sys2Proof/Machine/Multiply.lean ====
section
/-! DEFINITION. mul, muls, mulh, mulx (45_multiply.md), behind the capability gate
(40_cycle_engine.md R79). -/

namespace Sys2Proof.Machine

/-- mul (R140). -/
def execMul (rd rs : Reg) (sec : Operand) (s : State) : Host.Outcome State Fault Refusal :=
  .next (finishMul rd (byPolarity s.params (productLow s rs sec) (productSignedHigh s rs sec)) s)

/-- muls (R141). -/
def execMuls (rd rs : Reg) (sec : Operand) (s : State) : Host.Outcome State Fault Refusal :=
  .next (finishMul rd (byPolarity s.params (productSignedHigh s rs sec) (productLow s rs sec)) s)

/-- mulh (R142). -/
def execMulh (rd rs : Reg) (sec : Operand) (s : State) : Host.Outcome State Fault Refusal :=
  .next (finishMul rd (byPolarity s.params (productHigh s rs sec) (productMixedHigh s rs sec)) s)

/-- mulx (R143). -/
def execMulx (rd rs : Reg) (sec : Operand) (s : State) : Host.Outcome State Fault Refusal :=
  .next (finishMul rd (byPolarity s.params (productMixedHigh s rs sec) (productHigh s rs sec)) s)

end Sys2Proof.Machine
end

