-- ==== Sys2Proof/Machine/Dispatch.lean ====
section
/-! DEFINITION. The dispatch, one arm per instruction (40_cycle_engine.md R74). -/

namespace Sys2Proof.Machine

def exec (i : Instr) (s : State) : Host.Outcome State Fault Refusal :=
  match i with
  | .move moi rd rs sec => Sys2Proof.Machine.execMove moi rd rs sec s
  | .jump moi rd sync cond sec => Sys2Proof.Machine.execJump moi rd sync cond sec s
  | .load moi rd rs sec => Sys2Proof.Machine.execLoad moi rd rs sec s
  | .exchange moi rd rs sec => Sys2Proof.Machine.execExchange moi rd rs sec s
  | .sub moi rd rs sec => Sys2Proof.Machine.execSub moi rd rs sec s
  | .sbb moi rd rs sec => Sys2Proof.Machine.execSbb moi rd rs sec s
  | .add moi rd rs sec => Sys2Proof.Machine.execAdd moi rd rs sec s
  | .adc moi rd rs sec => Sys2Proof.Machine.execAdc moi rd rs sec s
  | .xor moi rd rs sec => Sys2Proof.Machine.execXor moi rd rs sec s
  | .or moi rd rs sec => Sys2Proof.Machine.execOr moi rd rs sec s
  | .store moi rd rs sec => Sys2Proof.Machine.execStore moi rd rs sec s
  | .shl moi rd rs sec => Sys2Proof.Machine.execShl moi rd rs sec s
  | .shr moi rd rs sec => Sys2Proof.Machine.execShr moi rd rs sec s
  | .and moi rd rs sec => Sys2Proof.Machine.execAnd moi rd rs sec s
  | .halt moi rd rs sec => Sys2Proof.Machine.execHalt moi rd rs sec s
  | .mul rd rs sec => Sys2Proof.Machine.execMul rd rs sec s
  | .muls rd rs sec => Sys2Proof.Machine.execMuls rd rs sec s
  | .mulh rd rs sec => Sys2Proof.Machine.execMulh rd rs sec s
  | .mulx rd rs sec => Sys2Proof.Machine.execMulx rd rs sec s

end Sys2Proof.Machine
end

