-- ==== Sys2Proof/Machine/Turn.lean ====
section
/-! DEFINITION. One turn of a core (40_cycle_engine.md R71), the step body, and where the next
instruction is fetched from. -/

namespace Sys2Proof.Machine

/-- `turn(k)` (R71): wrap `pc`, fetch, trace, decode, dispatch. -/
def takeTurn (s : State) : Host.Outcome State Fault Refusal :=
  exec (decode (fetchWord (wrapPc s))) (afterFetch (wrapPc s))

/-- One turn and its flushes (R70, R80); a halted instance does not change (R76, D17); a configuration the
spec does not describe is refused (60_exceptions.md R170). -/
def runTurn (s : State) : Host.Outcome State Fault Refusal :=
  match refusalOf s with
  | some r => .refused r
  | none => if s.halted then .next s else mapNext endTurn (takeTurn (beginTurn s))

/-- A read hook that covers one address only, for a word storage cannot deliver (30_encoding.md R63). -/
def fetchHook (addr : Nat) : Hook := ⟨addr, 0, 0⟩

/-- `s` with the word `w` placed where the next turn fetches it (log entry 35): as the next device answer where
a read hook covers the address, else in the storage cell, else, for a word that `normalize` would change,
as the answer of a read hook on that address. The state is set running, and since this stands for the image load
(log entry 34) no image can be loaded after it. -/
def placeFetchWord (w : Word) (s : State) : State :=
  let addr := (wrapPc s).pc.toNat
  let t := { s with halted := false, imageLoadable := false }
  match firstReadHook s addr with
  | some _ => { t with answers := w :: s.answers }
  | none =>
    if normalize w = w then { t with mem := cellSet s.mem addr w }
    else { t with rhooks := fetchHook addr :: s.rhooks.take 31, answers := w :: s.answers }

end Sys2Proof.Machine
end

