-- ==== Sys2Proof/Machine/Step.lean ====
section
/-! DEFINITION. The step of the machine: one core's turn and the flush that follows it. -/

namespace Sys2Proof.Machine

/-- One step: one turn and its flushes (40_cycle_engine.md R70, R71, R80). -/
def step (s : State) : Host.Outcome State Fault Refusal := runTurn s

/-- `s` with the table row's word placed where the next step fetches (log entry 35). -/
def State.withFetchWord (s : State) (nbits w : Nat) : State :=
  placeFetchWord (BitVec.ofNat 32 (w % 2 ^ nbits)) s

end Sys2Proof.Machine
end

