-- ==== Sys2Proof/Machine/HostInterface.lean ====
section
/-! DEFINITION. What the host can do (70_reset_and_hazards.md R190, R192, R196): construct, load the image,
register hooks, run one cycle, inspect. There is no other move (D27, log entry 32). -/

namespace Sys2Proof.Machine

/-- The cells of an image from address `base`, those that are not 0. -/
def imageCells : Nat → List Word → Memory
  | _, [] => []
  | base, w :: rest => if w = 0 then imageCells (base + 1) rest else (base, w) :: imageCells (base + 1) rest

/-- The instance is between two cycles, the only time at which the host makes a move (R196). -/
def betweenCycles (s : State) : Bool := decide (s.core = 0)

/-- Storage filled from address 0, "truncated or zero-padded", verbatim (10_state.md R23, R192); the image is then
loaded. -/
def storeImage (image : List Word) (s : State) : State :=
  { s with mem := imageCells 0 (image.take (memSize s.params)), imageLoadable := false }

/-- Load the image: "after construction, before the first cycle", once (R192, R196). At any other time the host has no
such move and nothing changes (log entry 39). -/
def loadImage (image : List Word) (s : State) : State :=
  if betweenCycles s ∧ s.imageLoadable then storeImage image s else s

/-- Construction, which is reset (R190): every piece of state at its value of 10_state.md R23, storage 0 until an
image is loaded ("an empty image gives all-zero storage", R196). -/
def construct (p : Params) (rhooks whooks : List Hook) : State :=
  { State.reset with params := p, rhooks := rhooks, whooks := whooks }

/-- What is in place before the first cycle: construction, then the image (R192). -/
def boot (p : Params) (image : List Word) (rhooks whooks : List Hook) : State :=
  loadImage image (construct p rhooks whooks)

/-- `add_read_hook(base, length, fn)`: appends; a 33rd entry is refused and leaves the list unchanged; only
between cycles (20_memory.md R36, D14). -/
def addReadHook (h : Hook) (s : State) : State :=
  if betweenCycles s ∧ s.rhooks.length < 32 then { s with rhooks := s.rhooks ++ [h] } else s

/-- `add_write_hook(base, length, fn)` (20_memory.md R36, D14). -/
def addWriteHook (h : Hook) (s : State) : State :=
  if betweenCycles s ∧ s.whooks.length < 32 then { s with whooks := s.whooks ++ [h] } else s

/-- The turns of a cycle still to be taken, stopping at a halt (40_cycle_engine.md R70). -/
def cycleTurns : Nat → State → Host.Outcome State Fault Refusal
  | 0, s => .next s
  | n + 1, s =>
    match takeTurn s with
    | .next t => if (endTurn t).halted then .next (endTurn t) else cycleTurns n (endTurn t)
    | .fault r => .fault r
    | .refused r => .refused r

/-- `cycle()` (40_cycle_engine.md R70): nothing if halted, else a flush and then one turn and flush for each core in
index order. Between two turns of a cycle the host cannot request one (R196), and the request is refused. -/
def runCycle (s : State) : Host.Outcome State Fault Refusal :=
  match refusalOf s with
  | some r => .refused r
  | none =>
    if s.halted then .next s
    else if betweenCycles s then cycleTurns (ncores s.params) (flush s)
    else .refused .withinCycle

/-- What an inspection shows: the value between cycles, nothing at any other time (R196). -/
def inspect {α : Type} (s : State) (value : α) : Option α :=
  if betweenCycles s then some value else none

/-- Inspection of a register, through the register read (10_state.md R24). -/
def inspectReg (s : State) (i : Nat) : Option Word := inspect s (readReg s i)

/-- Inspection of the flags (10_state.md R24). -/
def inspectFlags (s : State) : Option Flags := inspect s s.flags

/-- Inspection of the program counter (10_state.md R24). -/
def inspectPc (s : State) : Option Word := inspect s s.pc

/-- Inspection of `halted` (10_state.md R24). -/
def inspectHalted (s : State) : Option Bool := inspect s s.halted

/-- Inspection of a memory address, through `MemRead`: a hooked address answers from its hook, whose device
sees the read (10_state.md R24; log entry 36). The word, and the state after it. -/
def inspectMemory (s : State) (addr : Nat) : Option (Word × State) :=
  inspect s (memReadWord s addr, memReadEffect addr s)

/-- Reading the trace changes nothing (R196). -/
def inspectTrace (s : State) : Option (List TraceEntry) := inspect s s.trace

end Sys2Proof.Machine
end

