-- ==== Sys2Proof/Safety.lean ====
section
/-! DEFINITION. What counts as a good state and a good step, and the frames statements use. -/

namespace Sys2Proof.Machine

/-- Every register holds a normalized word (10_state.md R14, R22). -/
abbrev RegsNormalized (s : State) : Prop :=
  ∀ i : Fin 31, normalize s.regs[i] = s.regs[i]

/-- Every listed cell lies below `MEM_SIZE` (20_memory.md R31). -/
abbrev StorageInRange (s : State) : Prop :=
  ∀ c ∈ s.mem, c.1 < memSize s.params

/-- The slot is Idle at every turn boundary (10_state.md R19, R22); under `FLUSH_POINTS = endOfCycle` at
every cycle boundary only (70_reset_and_hazards.md R197). -/
abbrev SlotIdleAtBoundary (s : State) : Prop :=
  (s.params.readings.flushPoints = .everyTurn ∨ s.core = 0) → s.slot = .idle

/-- The invariant of a machine between two turns (10_state.md R22): a configuration of R5, a core of the
roster, canonical storage inside `MEM_SIZE`, normalized registers, an idle slot, a bounded trace (R20), a halted
instance at a cycle boundary (40_cycle_engine.md R76), and an image still to be loaded only before the first turn
(70_reset_and_hazards.md R196). -/
structure State.Inv (s : State) : Prop where
  config : refusalOf s = none
  storage : Memory.wf s.mem
  inRange : StorageInRange s
  regs : RegsNormalized s
  slot : SlotIdleAtBoundary s
  trace : s.trace.length ≤ s.params.traceCap
  halted : s.halted = true → s.core = 0
  image : s.imageLoadable = true → s.core = 0 ∧ s.halted = false

/-- A good step: a next state. The machine has no fault, and a refusal is a configuration the spec does not
describe (60_exceptions.md R170). -/
def StepsSafely (s : State) : Prop := ∃ t, step s = .next t

/-- No read hook covers the address (20_memory.md R37). -/
def NotReadHooked (s : State) (addr : Nat) : Prop :=
  ∀ h ∈ s.rhooks, ¬(h.base ≤ addr ∧ addr ≤ h.base + h.length)

/-- No write hook covers the address (20_memory.md R38). -/
def NotWriteHooked (s : State) (addr : Nat) : Prop :=
  ∀ h ∈ s.whooks, ¬(h.base ≤ addr ∧ addr ≤ h.base + h.length)

/-- `h`, entry `k` of the read hooks, is the first that covers the address (20_memory.md R37). -/
def FirstCovering (s : State) (addr k : Nat) (h : Hook) : Prop :=
  s.rhooks[k]? = some h ∧ (h.base ≤ addr ∧ addr ≤ h.base + h.length) ∧
    ∀ j, j < k → ∀ g, s.rhooks[j]? = some g → ¬(g.base ≤ addr ∧ addr ≤ g.base + g.length)

/-- Every word of storage reads as before. -/
def SameStorage (s t : State) : Prop := ∀ a, cellAt t.mem a = cellAt s.mem a

/-- Every register but `x[i]` reads as before. -/
def SameRegsExcept (i : Nat) (s t : State) : Prop := ∀ j, j ≠ i → readReg t j = readReg s j

/-- The frame of an instruction whose only effects are its destination register, the flags and `pc`: every
other register, every word of storage, the slot, `halted`, the hooks, the trace, the device calls and the
parameters are unchanged. -/
def RegFlagFrame (rd : Reg) (s t : State) : Prop :=
  SameRegsExcept rd.val s t ∧ SameStorage s t ∧
    t = { s with regs := t.regs, flags := t.flags, pc := t.pc }

/-- `x[rd]` of `t` is what writing `v` leaves: the normalized word, and 0 for r0, whose writes are
discarded (10_state.md R14). -/
def DestHolds (rd : Reg) (t : State) (v : Word) : Prop :=
  readReg t rd.val = if rd = 0 then 0 else normalize v

/-- `x[rd]` of `t` is the natural `n`, and 0 for r0, whose writes are discarded (10_state.md R14). -/
def DestNat (rd : Reg) (t : State) (n : Nat) : Prop :=
  (readReg t rd.val).toNat = if rd = 0 then 0 else n

/-- The instruction completes with `x[rd]` the natural `value` and the flags `flags`, `pc + 1`, and nothing
else changed. -/
def Completes (i : Instr) (rd : Reg) (s : State) (value : Nat) (flags : Flags) : Prop :=
  ∃ t, exec i s = .next t ∧ t.pc = s.pc + 1 ∧ DestNat rd t value ∧ t.flags = flags ∧
    RegFlagFrame rd s t

/-- The low half of `x[rs]` as a natural. -/
def primHalf (s : State) (rs : Reg) : Nat := (primValue s rs).toNat % 65536

/-- The low half of the secondary operand as a natural. -/
def secHalf (s : State) (sec : Operand) : Nat := (secValue s sec).toNat % 65536

/-- The 16-bit two's-complement value of a natural below 65536 (00_scope.md R7). -/
def signed16 (n : Nat) : Int := if n < 32768 then (n : Int) else (n : Int) - 65536

/-- An exact signed value that 16 bits cannot hold: signed overflow. -/
def outside16 (x : Int) : Bool := decide (x < -32768 ∨ 32767 < x)

/-- The 16-bit pattern of an integer, as a natural. -/
def wrap16 (x : Int) : Nat := (x % 65536).toNat

/-- The four flags of an adder result: Zero and Sign of the half `r`, and the Carry and Overflow given. -/
def arithFlags (r : Nat) (carry overflow : Bool) : Flags :=
  ⟨decide (r = 0), decide (32768 ≤ r), carry, overflow⟩

/-- The word as `normalize` leaves it, on naturals (10_state.md R11). -/
def normNat (n : Nat) : Nat := if n % 1073741824 = 0 then 0 else n

/-- The flags of a committed merge with halves `hi` and `lo`, under either view (41_alu.md R103,
00_scope.md R6); Overflow unchanged (D19). -/
def mergedFlags (view : MergeFlagView) (hi lo : Nat) (old : Flags) : Flags :=
  match view with
  | .low16 => ⟨decide (lo = 0), decide (32768 ≤ lo), false, old.v⟩
  | .word32 => ⟨decide (hi = 0 ∧ lo = 0), decide (32768 ≤ hi), false, old.v⟩

/-- The value of a shift of `p` by the low 4 bits of `q` (41_alu.md R99, R100; both kinds of right shift,
00_scope.md R6). -/
def shiftValue (kind : ShrKind) (right : Bool) (p q : Nat) : Nat :=
  if right then
    (match kind with
      | .logical => p / 2 ^ (q % 16)
      | .arithmetic => wrap16 (signed16 p / 2 ^ (q % 16)))
  else p * 2 ^ (q % 16) % 65536

/-- The mixed product's high half under either reading of its signed operand (41_alu.md R98, 00_scope.md R6). -/
def mixedHigh (signed : MulxSignedOperand) (p q : Nat) : Nat :=
  match signed with
  | .secondary => wrap16 ((p : Int) * signed16 q / 65536)
  | .primary => wrap16 ((q : Int) * signed16 p / 65536)

/-- The value a multiply row writes, its own or the other variant's of its opcode (00_scope.md R6, D3). -/
def rowValue (polarity : MulMoiPolarity) (own other : Nat) : Nat :=
  match polarity with
  | .plain => own
  | .reversed => other

/-- The instruction is one of the four multiplies (45_multiply.md). -/
def isMultiply : Instr → Bool
  | .mul _ _ _ => true
  | .muls _ _ _ => true
  | .mulh _ _ _ => true
  | .mulx _ _ _ => true
  | .move _ _ _ _ => false
  | .jump _ _ _ _ _ => false
  | .load _ _ _ _ => false
  | .exchange _ _ _ _ => false
  | .sub _ _ _ _ => false
  | .sbb _ _ _ _ => false
  | .add _ _ _ _ => false
  | .adc _ _ _ _ => false
  | .xor _ _ _ _ => false
  | .or _ _ _ _ => false
  | .store _ _ _ _ => false
  | .shl _ _ _ _ => false
  | .shr _ _ _ _ => false
  | .and _ _ _ _ => false
  | .halt _ _ _ _ => false

/-- What the table of 10_state.md R17 says an instruction may write: with the flag request clear, or for an
instruction without one, no flag; move, exchange and the bitwise operations clear Carry and keep Overflow; the
shifts keep Carry and Overflow. -/
def FlagsAsTabled (i : Instr) (old new : Flags) : Prop :=
  match i with
  | .move moi _ _ _ => if moi then new.c = false ∧ new.v = old.v else new = old
  | .exchange moi _ _ _ => if moi then new.c = false ∧ new.v = old.v else new = old
  | .xor moi _ _ _ => if moi then new.c = false ∧ new.v = old.v else new = old
  | .or moi _ _ _ => if moi then new.c = false ∧ new.v = old.v else new = old
  | .and moi _ _ _ => if moi then new.c = false ∧ new.v = old.v else new = old
  | .shl moi _ _ _ => if moi then new.c = old.c ∧ new.v = old.v else new = old
  | .shr moi _ _ _ => if moi then new.c = old.c ∧ new.v = old.v else new = old
  | .sub moi _ _ _ => moi = true ∨ new = old
  | .sbb moi _ _ _ => moi = true ∨ new = old
  | .add moi _ _ _ => moi = true ∨ new = old
  | .adc moi _ _ _ => moi = true ∨ new = old
  | .mul _ _ _ => new = old
  | .muls _ _ _ => new = old
  | .mulh _ _ _ => new = old
  | .mulx _ _ _ => new = old
  | .jump _ _ _ _ _ => new = old
  | .load _ _ _ _ => new = old
  | .store _ _ _ _ => new = old
  | .halt _ _ _ _ => new = old

/-- What the table of 10_state.md R17 says an instruction may read of the flags: everything for jump, Carry for
sbb and adc, nothing for the others. Two flag values agree for the instruction when it reads the same of both. -/
def FlagsReadAgree (i : Instr) (f g : Flags) : Prop :=
  match i with
  | .jump _ _ _ _ _ => f = g
  | .sbb _ _ _ _ => f.c = g.c
  | .adc _ _ _ _ => f.c = g.c
  | .move _ _ _ _ => True
  | .exchange _ _ _ _ => True
  | .xor _ _ _ _ => True
  | .or _ _ _ _ => True
  | .and _ _ _ _ => True
  | .shl _ _ _ _ => True
  | .shr _ _ _ _ => True
  | .sub _ _ _ _ => True
  | .add _ _ _ _ => True
  | .mul _ _ _ => True
  | .muls _ _ _ => True
  | .mulh _ _ _ => True
  | .mulx _ _ _ => True
  | .load _ _ _ _ => True
  | .store _ _ _ _ => True
  | .halt _ _ _ _ => True

/-- A turn is about to be taken and nothing is pending: the configuration is in range, the instance runs, the
slot is idle. -/
structure Ready (s : State) : Prop where
  config : refusalOf s = none
  running : s.halted = false
  slot : s.slot = .idle

/-- The address the next turn fetches from (40_cycle_engine.md R71 step 1). -/
def nextAddress (s : State) : Word := (wrapPc s).pc

/-- The word the next turn fetches (40_cycle_engine.md R72). -/
def nextWord (s : State) : Word := fetchWord (wrapPc s)

/-- The state without its trace and its trace settings (10_state.md R20). -/
def eraseTrace (s : State) : State :=
  { s with params := { s.params with traceEn := false, traceCap := 0 }, trace := [] }

/-- The same state under another roster of capabilities. -/
def withCaps (caps : List Capability) (s : State) : State :=
  { s with params := { s.params with caps := caps } }

end Sys2Proof.Machine
end

