-- ==== Sys2Proof/Certificates/Slice0/Obligations.lean ====
section
/-! DEFINITION. The statements for the provers, from the numbered rules of the spec. Where a docstring names a
decision D<n> of 92_eei_decisions.md or a log entry, that clause is the spec's own choice or the model's, not
the source's. -/

open Sys2Proof Sys2Proof.Machine

/-! ### Encoding -/

/-- Words written out from the layout of 30_encoding.md R50 decode to the instructions they stand for
(95_test_vectors.md, one word per family). -/
def Obligations.SampleWordsDecode : Prop :=
  decode 0xC216FFFF = .add true 1 1 (.imm 0xFFFF) ∧
  decode 0x46305678 = .move false 3 3 (.imm 0x5678) ∧
  decode 0x06230002 = .exchange false 3 2 (.reg 2) ∧
  decode 0x80140002 = .sub true 0 1 (.reg 2) ∧
  decode 0x8C270004 = .adc true 6 2 (.reg 4) ∧
  decode 0xC41B800F = .shr true 2 1 (.imm 0x800F) ∧
  decode 0xC41E0002 = .muls 2 1 (.imm 2) ∧
  decode 0x4B510010 = .jump false 5 true 5 (.imm 0x10) ∧
  decode 0x022A0003 = .store false 1 2 (.reg 3) ∧
  decode 0x04120003 = .load false 2 1 (.reg 3) ∧
  decode 0xFFFDFFFF = .halt true 31 31 (.imm 0xFFFF)

/-- No bit of an encoding is dropped: decoding the encoding of a well-formed instruction gives it back. -/
def Obligations.DecodeInvertsEncode : Prop :=
  ∀ i : Instr, i.wellFormed = true → decode (encode i) = i

/-- Every word is the encoding of the well-formed instruction it decodes to (R62: nothing is reserved; ignored
bits are kept in the syntax, log entry 18). -/
def Obligations.EncodeInvertsDecode : Prop :=
  ∀ w : Word, (decode w).wellFormed = true ∧ encode (decode w) = w

/-- R64: a word matches the (match, mask) pair of exactly the row it decodes to. -/
def Obligations.EveryWordMatchesExactlyItsRow : Prop :=
  ∀ (w : Word) (r : OpcodeRow), r ∈ opcodeRows →
    (w &&& r.mask = r.pattern ↔ r.mnemonic = mnemonicOf (decode w))

/-- The encoding function of R64 and the layout of R50: the encoded word is the weighted sum of its fields, and
each slice of it is the field it was made from. -/
def Obligations.EncodedFieldsAreTheLayout : Prop :=
  ∀ (moi soii : Bool) (rd rs op : Nat) (field : Half), rd < 32 → rs < 32 → op < 16 →
    (encodeFields moi soii rd rs op field).toNat =
      moi.toNat * 2147483648 + soii.toNat * 1073741824 + rd * 33554432 + rs * 1048576 + op * 65536 +
        field.toNat ∧
    moiOf (encodeFields moi soii rd rs op field) = moi ∧
    soiiOf (encodeFields moi soii rd rs op field) = soii ∧
    (rdOf (encodeFields moi soii rd rs op field)).val = rd ∧
    (rsOf (encodeFields moi soii rd rs op field)).val = rs ∧
    opOf (encodeFields moi soii rd rs op field) = op ∧
    fieldOf (encodeFields moi soii rd rs op field) = field

/-! ### Words, registers, operands -/

/-- R11: the four patterns, exactly those with bits 29 to 0 zero, become 0, every other word passes; idempotent;
the identity on halves; applied at every value boundary: register write, memory store, memory read, secondary
operand, ALU output. -/
def Obligations.NormalizeAppliesAtEveryBoundary : Prop :=
  (∀ w : Word, normalize w =
      if w = 0x00000000 ∨ w = 0x40000000 ∨ w = 0x80000000 ∨ w = 0xC0000000 then 0 else w) ∧
  (∀ w : Word, normalize w = 0 ↔ bits w 29 0 = 0) ∧
  (∀ w : Word, bits w 29 0 ≠ 0 → normalize w = w) ∧
  (∀ w : Word, normalize (normalize w) = normalize w) ∧
  (∀ h : Half, normalize (zext32 h) = zext32 h) ∧
  (∀ (s : State) (i : Nat) (v : Word), 1 ≤ i → i ≤ 31 → readReg (writeReg i v s) i = normalize v) ∧
  (∀ (s : State) (a : Nat) (v : Word), Memory.wf s.mem → NotWriteHooked s a → a < memSize s.params →
      cellAt (memWrite a v s).mem a = normalize v) ∧
  (∀ (s : State) (a : Nat), NotReadHooked s a → a < memSize s.params →
      memReadWord s a = normalize (cellAt s.mem a)) ∧
  (∀ (s : State) (f : Half), secValue s (.imm f) = normalize (zext32 f) ∧
      secValue s (.reg f) = normalize (readReg s f.toNat)) ∧
  (∀ (s : State) (i : Nat) (o : AluOut), 1 ≤ i → i ≤ 31 →
      readReg (writeReg i (zext32 o.value) s) i = zext32 o.value)

/-- R13: a register read is 0 for index 0 and above 31, the stored word otherwise. -/
def Obligations.RegisterReadRule : Prop :=
  ∀ (s : State) (i : Nat),
    (i = 0 ∨ 31 < i → readReg s i = 0) ∧
    (∀ h : 1 ≤ i ∧ i ≤ 31, readReg s i = s.regs[i - 1]'(by omega))

/-- R14: a register write normalizes, touches no other register and no other state, does nothing for index 0
and above 31, and keeps every register normalized. -/
def Obligations.RegisterWriteRule : Prop :=
  ∀ (s : State) (i : Nat) (v : Word),
    (i = 0 ∨ 31 < i → writeReg i v s = s) ∧
    (1 ≤ i → i ≤ 31 → readReg (writeReg i v s) i = normalize v) ∧
    (∀ j, j ≠ i → readReg (writeReg i v s) j = readReg s j) ∧
    writeReg i v s = { s with regs := (writeReg i v s).regs } ∧
    ((∀ j, normalize (readReg s j) = readReg s j) →
      ∀ j, normalize (readReg (writeReg i v s) j) = readReg (writeReg i v s) j)

/-- R56: a literal is zero-extended, never sign-extended; a register operand is the register of the whole 16-bit
index, 0 for index 0 and above 31; the result is normalized, which changes nothing in either case (for the second,
given normalized registers). -/
def Obligations.SecondaryOperandRule : Prop :=
  ∀ (s : State) (f : Half),
    (secValue s (.imm f)).toNat = f.toNat ∧
    (f.toNat = 0 ∨ 31 < f.toNat → secValue s (.reg f) = 0) ∧
    (∀ h : 1 ≤ f.toNat ∧ f.toNat ≤ 31,
      secValue s (.reg f) = normalize (s.regs[f.toNat - 1]'(by omega)) ∧
      (RegsNormalized s → secValue s (.reg f) = s.regs[f.toNat - 1]'(by omega)))

/-! ### The ALU -/

/-- R91: the one adder, on the 17-bit sum; Overflow from the operands' and the result's sign bits, which is
signed overflow. -/
def Obligations.AdderRule : Prop :=
  (∀ (a b : Half) (cin : Bool),
    (addc a b cin).value.toNat = (a.toNat + b.toNat + cin.toNat) % 65536 ∧
    (addc a b cin).flags.z = some (decide ((addc a b cin).value.toNat = 0)) ∧
    (addc a b cin).flags.s = some (decide (32768 ≤ (addc a b cin).value.toNat)) ∧
    (addc a b cin).flags.c = some (decide (65535 < a.toNat + b.toNat + cin.toNat)) ∧
    (addc a b cin).flags.v = some (decide ((a.toNat < 32768 ↔ b.toNat < 32768) ∧
      ¬((addc a b cin).value.toNat < 32768 ↔ a.toNat < 32768))) ∧
    (addc a b cin).flags.v =
      some (outside16 (signed16 a.toNat + signed16 b.toNat + (cin.toNat : Int)))) ∧
  (∀ a b : Half, aluAdd a b = addc a b false) ∧
  aluAdd 2 0xFFFC = ⟨0xFFFE, ⟨some false, some true, some false, some false⟩⟩

/-- R92: subtraction is the adder on the complement with carry in 1, Carry inverted: the difference modulo 65536,
Carry the unsigned borrow, Overflow the signed overflow, and Sign xor Overflow the signed comparison. -/
def Obligations.SubtractRule : Prop :=
  (∀ a b : Half,
    (aluSub a b).value = (addc a (complement16 b) true).value ∧
    (complement16 b).toNat = 65535 - b.toNat ∧
    (aluSub a b).value.toNat = (a.toNat + 65536 - b.toNat) % 65536 ∧
    (aluSub a b).flags.z = some (decide ((aluSub a b).value.toNat = 0)) ∧
    (aluSub a b).flags.s = some (decide (32768 ≤ (aluSub a b).value.toNat)) ∧
    (aluSub a b).flags.c = some (decide (a.toNat < b.toNat)) ∧
    (aluSub a b).flags.v = some (outside16 (signed16 a.toNat - signed16 b.toNat)) ∧
    (∃ sg ov : Bool, (aluSub a b).flags.s = some sg ∧ (aluSub a b).flags.v = some ov ∧
      (sg != ov) = decide (signed16 a.toNat < signed16 b.toNat))) ∧
  aluSub 3 5 = ⟨0xFFFE, ⟨some false, some true, some true, some false⟩⟩

/-- R93 under D7 (the Carry after sbb is a borrow): the difference less the incoming borrow, the outgoing borrow,
and agreement with sub when Carry is clear. -/
def Obligations.SubtractWithBorrowRule : Prop :=
  ∀ (a b : Half) (c : Bool),
    (aluSbb a b c).value.toNat = (a.toNat + 65536 - (b.toNat + c.toNat)) % 65536 ∧
    (aluSbb a b c).flags.z = some (decide ((aluSbb a b c).value.toNat = 0)) ∧
    (aluSbb a b c).flags.s = some (decide (32768 ≤ (aluSbb a b c).value.toNat)) ∧
    (aluSbb a b c).flags.c = some (decide (a.toNat < b.toNat + c.toNat)) ∧
    (aluSbb a b c).flags.v = some (outside16 (signed16 a.toNat - signed16 b.toNat - (c.toNat : Int))) ∧
    aluSbb a b false = aluSub a b

/-- The source's property (95_test_vectors.md S3, 41_alu.md R104): sub undoes add, for all halves. -/
def Obligations.SubUndoesAdd : Prop :=
  ∀ a b : Half, (aluSub (aluAdd a b).value b).value = a

/-- R95 to R98 with D22 and the floor of 93_implementation_defined.md part 3: the halves of the four products. The
pairs mul and mulh, and mul and muls, are the two halves of the exact product. -/
def Obligations.MultiplyFunctionsAreProductHalves : Prop :=
  ∀ a b : Half,
    (aluMul a b).toNat = a.toNat * b.toNat % 65536 ∧
    (aluMulh a b).toNat * 65536 + (aluMul a b).toNat = a.toNat * b.toNat ∧
    signed16 (aluMuls a b).toNat * 65536 + ((aluMul a b).toNat : Int) =
      signed16 a.toNat * signed16 b.toNat ∧
    signed16 (aluMulx a b).toNat * 65536 + ((aluMul a b).toNat : Int) =
      (a.toNat : Int) * signed16 b.toNat ∧
    (b.toNat < 32768 → aluMulx a b = aluMulh a b)

/-- R99: shl by the low 4 bits of the amount; Zero and Sign proposed, Carry and Overflow never. -/
def Obligations.ShiftLeftRule : Prop :=
  (∀ (a : Half) (n : Word),
    (aluShl a n).value.toNat = a.toNat * 2 ^ (n.toNat % 16) % 65536 ∧
    (aluShl a n).flags = ⟨some (decide ((aluShl a n).value.toNat = 0)),
      some (decide (32768 ≤ (aluShl a n).value.toNat)), none, none⟩) ∧
  (aluShl 5 2).value = 20 ∧ (aluShl 5 16).value = 5

/-- R100 under D6 (logical), and the arithmetic alternative of 00_scope.md R6: shr by the low 4 bits of the
amount; under `logical` Sign is set only by an amount of 0. -/
def Obligations.ShiftRightRule : Prop :=
  ∀ (kind : ShrKind) (a : Half) (n : Word),
    (aluShr kind a n).value.toNat = shiftValue kind true a.toNat n.toNat ∧
    (aluShr kind a n).flags = ⟨some (decide ((aluShr kind a n).value.toNat = 0)),
      some (decide (32768 ≤ (aluShr kind a n).value.toNat)), none, none⟩ ∧
    (kind = .logical → 1 ≤ n.toNat % 16 → (aluShr kind a n).value.toNat < 32768)

/-- R101: the condition table, all 16 entries. -/
def Obligations.ConditionTableRule : Prop :=
  ∀ f : Flags,
    conditionTable f 0 = true ∧ conditionTable f 1 = (f.c || f.z) ∧
    conditionTable f 2 = (f.s ^^ f.v) ∧ conditionTable f 3 = (f.z || (f.s ^^ f.v)) ∧
    conditionTable f 4 = f.s ∧ conditionTable f 5 = f.z ∧ conditionTable f 6 = f.v ∧
    conditionTable f 7 = f.c ∧ conditionTable f 8 = false ∧
    conditionTable f 9 = !(f.c || f.z) ∧ conditionTable f 10 = !(f.s ^^ f.v) ∧
    conditionTable f 11 = !(f.z || (f.s ^^ f.v)) ∧ conditionTable f 12 = !f.s ∧
    conditionTable f 13 = !f.z ∧ conditionTable f 14 = !f.v ∧ conditionTable f 15 = !f.c

/-- The meaning of entries 1 and 2 after the compare `sub.f r0, rs, <sec>` (41_alu.md R101, 43_arithmetic.md R120):
"below or equal" unsigned and "less" signed, of `sec` against `x[rs]`. -/
def Obligations.CompareThenConditionCompares : Prop :=
  ∀ (rs : Reg) (sec : Operand) (s : State), ∃ t, exec (.sub true 0 rs sec) s = .next t ∧
    conditionTable t.flags 1 = decide (secHalf s sec ≤ primHalf s rs) ∧
    conditionTable t.flags 2 = decide (signed16 (secHalf s sec) < signed16 (primHalf s rs)) ∧
    conditionTable t.flags 3 = decide (signed16 (secHalf s sec) ≤ signed16 (primHalf s rs)) ∧
    conditionTable t.flags 5 = decide (secHalf s sec = primHalf s rs) ∧
    t.regs = s.regs

/-! ### The instructions: result, flags, frame -/

/-- R110: move merges the high half of `x[rs]` with the low half of `sec`; flags by either view (D2), Overflow
unchanged (D19). -/
def Obligations.MoveMergesHalves : Prop :=
  ∀ (moi : Bool) (rd rs : Reg) (sec : Operand) (s : State),
    Completes (.move moi rd rs sec) rd s
      (normNat ((primValue s rs).toNat / 65536 * 65536 + secHalf s sec))
      (if moi then mergedFlags s.params.readings.mergeView ((primValue s rs).toNat / 65536)
        (secHalf s sec) s.flags else s.flags)

/-- R111: exchange merges the low half of `x[rs]`, moved up, with the high half of `sec`, moved down; flags as
move. -/
def Obligations.ExchangeMergesHalves : Prop :=
  ∀ (moi : Bool) (rd rs : Reg) (sec : Operand) (s : State),
    Completes (.exchange moi rd rs sec) rd s
      (normNat (primHalf s rs * 65536 + (secValue s sec).toNat / 65536))
      (if moi then mergedFlags s.params.readings.mergeView (primHalf s rs)
        ((secValue s sec).toNat / 65536) s.flags else s.flags)

/-- R120: sub computes `sec - prim` modulo 65536; with `moi` Zero, Sign, Carry the borrow, Overflow. -/
def Obligations.SubWritesDifferenceAndFlags : Prop :=
  ∀ (moi : Bool) (rd rs : Reg) (sec : Operand) (s : State),
    Completes (.sub moi rd rs sec) rd s ((secHalf s sec + 65536 - primHalf s rs) % 65536)
      (if moi then arithFlags ((secHalf s sec + 65536 - primHalf s rs) % 65536)
        (decide (secHalf s sec < primHalf s rs))
        (outside16 (signed16 (secHalf s sec) - signed16 (primHalf s rs))) else s.flags)

/-- R121 under D7: sbb computes `sec - prim - C`, reading Carry whatever `moi` is; Carry out is the borrow. -/
def Obligations.SbbWritesDifferenceAndFlags : Prop :=
  ∀ (moi : Bool) (rd rs : Reg) (sec : Operand) (s : State),
    Completes (.sbb moi rd rs sec) rd s
      ((secHalf s sec + 65536 - (primHalf s rs + s.flags.c.toNat)) % 65536)
      (if moi then arithFlags ((secHalf s sec + 65536 - (primHalf s rs + s.flags.c.toNat)) % 65536)
        (decide (secHalf s sec < primHalf s rs + s.flags.c.toNat))
        (outside16 (signed16 (secHalf s sec) - signed16 (primHalf s rs) - (s.flags.c.toNat : Int)))
       else s.flags)

/-- R122: add computes `prim + sec` modulo 65536; with `moi` Zero, Sign, Carry out of bit 15, Overflow. -/
def Obligations.AddWritesSumAndFlags : Prop :=
  ∀ (moi : Bool) (rd rs : Reg) (sec : Operand) (s : State),
    Completes (.add moi rd rs sec) rd s ((primHalf s rs + secHalf s sec) % 65536)
      (if moi then arithFlags ((primHalf s rs + secHalf s sec) % 65536)
        (decide (65535 < primHalf s rs + secHalf s sec))
        (outside16 (signed16 (primHalf s rs) + signed16 (secHalf s sec))) else s.flags)

/-- R123 with D7: adc computes `prim + sec + C`, reading Carry whatever `moi` is; flags on the 17-bit sum. -/
def Obligations.AdcWritesSumAndFlags : Prop :=
  ∀ (moi : Bool) (rd rs : Reg) (sec : Operand) (s : State),
    Completes (.adc moi rd rs sec) rd s ((primHalf s rs + secHalf s sec + s.flags.c.toNat) % 65536)
      (if moi then arithFlags ((primHalf s rs + secHalf s sec + s.flags.c.toNat) % 65536)
        (decide (65535 < primHalf s rs + secHalf s sec + s.flags.c.toNat))
        (outside16 (signed16 (primHalf s rs) + signed16 (secHalf s sec) + (s.flags.c.toNat : Int)))
       else s.flags)

/-- R130 to R132 with R102: xor, or, and on the low halves; with `moi` (D8) Zero and Sign, Carry cleared,
Overflow unchanged (D19). -/
def Obligations.LogicWritesBitsAndFlags : Prop :=
  ∀ (moi : Bool) (rd rs : Reg) (sec : Operand) (s : State),
    Completes (.xor moi rd rs sec) rd s (primHalf s rs ^^^ secHalf s sec)
      (if moi then arithFlags (primHalf s rs ^^^ secHalf s sec) false s.flags.v else s.flags) ∧
    Completes (.or moi rd rs sec) rd s (primHalf s rs ||| secHalf s sec)
      (if moi then arithFlags (primHalf s rs ||| secHalf s sec) false s.flags.v else s.flags) ∧
    Completes (.and moi rd rs sec) rd s (primHalf s rs &&& secHalf s sec)
      (if moi then arithFlags (primHalf s rs &&& secHalf s sec) false s.flags.v else s.flags)

/-- R133 and R134: shl and shr by the low 4 bits of `sec`; with `moi` Zero and Sign, Carry and Overflow never
touched. The direction is the instruction's own (D1), or bit 15 of the resolved operand under the alternative; the
kind of right shift is D6's or the alternative (00_scope.md R6). -/
def Obligations.ShiftsWriteShiftedValue : Prop :=
  ∀ (moi : Bool) (rd rs : Reg) (sec : Operand) (s : State),
    (∀ right : Bool, right = decide (s.params.readings.shiftDir = .resolved ∧ 32768 ≤ secHalf s sec) →
      Completes (.shl moi rd rs sec) rd s
        (shiftValue s.params.readings.shrKind right (primHalf s rs) (secHalf s sec))
        (if moi then arithFlags (shiftValue s.params.readings.shrKind right (primHalf s rs) (secHalf s sec))
          s.flags.c s.flags.v else s.flags)) ∧
    (∀ right : Bool, right = decide (s.params.readings.shiftDir = .field ∨ 32768 ≤ secHalf s sec) →
      Completes (.shr moi rd rs sec) rd s
        (shiftValue s.params.readings.shrKind right (primHalf s rs) (secHalf s sec))
        (if moi then arithFlags (shiftValue s.params.readings.shrKind right (primHalf s rs) (secHalf s sec))
          s.flags.c s.flags.v else s.flags))

/-- R140 to R143 on a core that can multiply: mul the low half of the product, muls the signed high half, mulh the
unsigned high half, mulx the mixed high half (D4, D22); no flag (D5). Under `MUL_MOI_POLARITY = reversed` the two
rows of an opcode swap (D3). -/
def Obligations.MultipliesWriteProductHalves : Prop :=
  ∀ (rd rs : Reg) (sec : Operand) (s : State), canMultiply s.params s.core = true →
    Completes (.mul rd rs sec) rd s
      (rowValue s.params.readings.mulPolarity (primHalf s rs * secHalf s sec % 65536)
        (wrap16 (signed16 (primHalf s rs) * signed16 (secHalf s sec) / 65536))) s.flags ∧
    Completes (.muls rd rs sec) rd s
      (rowValue s.params.readings.mulPolarity
        (wrap16 (signed16 (primHalf s rs) * signed16 (secHalf s sec) / 65536))
        (primHalf s rs * secHalf s sec % 65536)) s.flags ∧
    Completes (.mulh rd rs sec) rd s
      (rowValue s.params.readings.mulPolarity (primHalf s rs * secHalf s sec / 65536)
        (mixedHigh s.params.readings.mulxSigned (primHalf s rs) (secHalf s sec))) s.flags ∧
    Completes (.mulx rd rs sec) rd s
      (rowValue s.params.readings.mulPolarity
        (mixedHigh s.params.readings.mulxSigned (primHalf s rs) (secHalf s sec))
        (primHalf s rs * secHalf s sec / 65536)) s.flags

/-- R79: which cores can multiply; on one that cannot, the four multiplies only advance `pc`; every other
instruction does the same under every roster of the same length. -/
def Obligations.MultiplyGateRule : Prop :=
  (∀ (p : Params) (k : Nat),
    (p.caps[k]? = some .basic → canMultiply p k = false) ∧
    (p.caps[k]? = some .standard → canMultiply p k = p.mulAllow) ∧
    (p.caps[k]? = some .multiply → canMultiply p k = true)) ∧
  (∀ (rd rs : Reg) (sec : Operand) (s : State), canMultiply s.params s.core = false →
    exec (.mul rd rs sec) s = .next { s with pc := s.pc + 1 } ∧
    exec (.muls rd rs sec) s = .next { s with pc := s.pc + 1 } ∧
    exec (.mulh rd rs sec) s = .next { s with pc := s.pc + 1 } ∧
    exec (.mulx rd rs sec) s = .next { s with pc := s.pc + 1 }) ∧
  (∀ (i : Instr) (s : State) (caps : List Capability), isMultiply i = false →
    caps.length = s.params.caps.length →
    exec i (withCaps caps s) = mapNext (withCaps caps) (exec i s))

/-- R150 with D9 (moi ignored) and D26 (the link value): not taken, `pc + 1` and nothing else; taken and
redirecting, the link then the target, read before the link is written; taken and synchronized on the last core,
nothing at all. -/
def Obligations.JumpRule : Prop :=
  ∀ (moi : Bool) (rd : Reg) (sync : Bool) (cond : Cond) (sec : Operand) (s : State),
    (conditionTable s.flags cond = false →
      exec (.jump moi rd sync cond sec) s = .next { s with pc := s.pc + 1 }) ∧
    (conditionTable s.flags cond = true → sync = true → s.core + 1 = ncores s.params →
      exec (.jump moi rd sync cond sec) s = .next s) ∧
    (conditionTable s.flags cond = true → ¬(sync = true ∧ s.core + 1 = ncores s.params) →
      ∃ t, exec (.jump moi rd sync cond sec) s = .next t ∧
        t.pc = secValue s sec ∧ DestHolds rd t (s.pc + 1) ∧
        (s.pc.toNat < 65536 → DestNat rd t (s.pc.toNat + 1)) ∧
        t.flags = s.flags ∧ RegFlagFrame rd s t)

/-- R155 with D9 (every field ignored): halt sets `halted`, advances `pc`, and changes nothing else. -/
def Obligations.HaltRule : Prop :=
  ∀ (moi : Bool) (rd rs : Reg) (sec : Operand) (s : State),
    exec (.halt moi rd rs sec) s = .next { s with halted := true, pc := s.pc + 1 }

/-- R160: the effective address is the full sum modulo 65536, which is the sum of the low halves modulo 65536; it
is captured when the instruction executes, and no register is written by its computation. -/
def Obligations.EffectiveAddressRule : Prop :=
  ∀ (rd rs : Reg) (sec : Operand) (s : State),
    (effectiveAddress s rs sec).toNat = ((primValue s rs).toNat + (secValue s sec).toNat) % 65536 ∧
    (effectiveAddress s rs sec).toNat = (primHalf s rs + secHalf s sec) % 65536 ∧
    (∃ t, exec (.load false rd rs sec) s = .next t ∧ t.slot = .read (effectiveAddress s rs sec) rd ∧
      t.regs = s.regs) ∧
    (∃ t, exec (.store false rd rs sec) s = .next t ∧ t.slot = .write (effectiveAddress s rs sec) rd ∧
      t.regs = s.regs)

/-- R161 and R162 with D9 (moi ignored) and D28 (the slot holds an address and a register index): load and store
arm the slot, advance `pc` and change nothing else; no memory is touched before the flush. -/
def Obligations.LoadAndStoreArmTheSlot : Prop :=
  ∀ (moi : Bool) (rd rs : Reg) (sec : Operand) (s : State),
    exec (.load moi rd rs sec) s =
      .next { s with slot := .read (effectiveAddress s rs sec) rd, pc := s.pc + 1 } ∧
    exec (.store moi rd rs sec) s =
      .next { s with slot := .write (effectiveAddress s rs sec) rd, pc := s.pc + 1 }

/-- R17 (with D5 and D19): what each instruction writes of the flags, and that it reads of them nothing but what
the table says: with flags that agree there, registers, `pc`, `halted` and the slot end the same. -/
def Obligations.FlagsFollowTheTable : Prop :=
  ∀ (i : Instr) (s : State), ∃ t, exec i s = .next t ∧ FlagsAsTabled i s.flags t.flags ∧
    ∀ f : Flags, FlagsReadAgree i s.flags f → ∃ u, exec i { s with flags := f } = .next u ∧
      u.regs = t.regs ∧ u.pc = t.pc ∧ u.halted = t.halted ∧ u.slot = t.slot

/-! ### Memory, hooks, the flush -/

/-- R37 (R39): the first matching read hook answers, un-normalized and seen by its device alone; else the
normalized word of a cell below `MEM_SIZE`; else 0. Storage never changes. -/
def Obligations.MemReadRule : Prop :=
  ∀ (s : State) (a : Nat),
    (∀ (k : Nat) (h : Hook), FirstCovering s a k h →
      memReadWord s a = deviceAnswerAt s h a ∧
      memReadEffect a s = { s with answers := s.answers.tail, draws := s.draws + 1,
                                   events := s.events ++ [.readCall k a (deviceAnswerAt s h a)] }) ∧
    (NotReadHooked s a → a < memSize s.params → memReadWord s a = normalize (cellAt s.mem a)) ∧
    (NotReadHooked s a → memSize s.params ≤ a → memReadWord s a = 0) ∧
    (NotReadHooked s a → memReadEffect a s = s) ∧
    (memReadEffect a s).mem = s.mem

/-- R38 (R40): every matching write hook is called in registration order with the value and its own offset and the
store is suppressed; else a cell below `MEM_SIZE` receives the normalized word and no other cell changes; else
nothing. -/
def Obligations.MemWriteRule : Prop :=
  ∀ (s : State) (a : Nat) (v : Word),
    (¬NotWriteHooked s a →
      memWrite a v s = { s with events := s.events ++ s.whooks.zipIdx.filterMap fun p =>
        if p.1.base ≤ a ∧ a ≤ p.1.base + p.1.length then some (.writeCall p.2 v (a - p.1.base)) else none }) ∧
    (NotWriteHooked s a → a < memSize s.params →
      memWrite a v s = { s with mem := (memWrite a v s).mem } ∧
      (Memory.wf s.mem → ∀ b, cellAt (memWrite a v s).mem b = if b = a then normalize v else cellAt s.mem b)) ∧
    (NotWriteHooked s a → memSize s.params ≤ a → memWrite a v s = s)

/-- R77 (with D20: a read into r0 is still performed): what the flush does for each slot; the slot ends Idle, no
flag and no `pc` changes. -/
def Obligations.FlushRule : Prop :=
  ∀ s : State,
    (s.slot = .idle → flush s = s) ∧
    (∀ (a : Half) (r : Reg), s.slot = .read a r →
      DestHolds r (flush s) (memReadWord s a.toNat) ∧ SameRegsExcept r.val s (flush s) ∧
      SameStorage s (flush s) ∧
      flush s = { memReadEffect a.toNat s with regs := (flush s).regs, slot := .idle }) ∧
    (∀ (a : Half) (r : Reg), s.slot = .write a r →
      flush s = { memWrite a.toNat (readReg s r.val) s with slot := .idle }) ∧
    (flush s).slot = .idle ∧ (flush s).flags = s.flags ∧ (flush s).pc = s.pc

/-- R196, R192, R36 with D14 and D27 (log entry 39): what the host can do, and when. Registration appends at the end
of its own list, between cycles, up to 32 entries; a 33rd is refused and leaves the list unchanged. The image is loaded
between cycles, before the first turn, and once: storage then is the image, truncated or zero-padded, and no host move
writes it again. Within a cycle the host has no move: nothing changes, a cycle is refused, an inspection shows nothing.
Between cycles an inspection shows the value, and of memory what `MemRead` answers. -/
def Obligations.HostMovesRule : Prop :=
  ∀ (s : State) (h : Hook) (image : List Word),
    (s.core = 0 →
      (s.rhooks.length < 32 → addReadHook h s = { s with rhooks := s.rhooks ++ [h] }) ∧
      (32 ≤ s.rhooks.length → addReadHook h s = s) ∧
      (s.whooks.length < 32 → addWriteHook h s = { s with whooks := s.whooks ++ [h] }) ∧
      (32 ≤ s.whooks.length → addWriteHook h s = s) ∧
      (∀ i a, inspectReg s i = some (readReg s i) ∧ inspectFlags s = some s.flags ∧ inspectPc s = some s.pc ∧
        inspectHalted s = some s.halted ∧ inspectTrace s = some s.trace ∧
        inspectMemory s a = some (memReadWord s a, memReadEffect a s))) ∧
    (s.core ≠ 0 →
      addReadHook h s = s ∧ addWriteHook h s = s ∧ loadImage image s = s ∧
      (refusalOf s = none → s.halted = false → runCycle s = .refused .withinCycle) ∧
      (∀ i a, inspectReg s i = none ∧ inspectFlags s = none ∧ inspectPc s = none ∧ inspectHalted s = none ∧
        inspectTrace s = none ∧ inspectMemory s a = none)) ∧
    (s.core = 0 → s.imageLoadable = true →
      (∀ a, cellAt (loadImage image s).mem a = if a < memSize s.params then image.getD a 0 else 0) ∧
      loadImage image s = { s with mem := (loadImage image s).mem, imageLoadable := false }) ∧
    (s.imageLoadable = false → loadImage image s = s) ∧
    (∀ again : List Word, loadImage again (loadImage image s) = loadImage image s) ∧
    (s.halted = false → ∀ t, step s = .next t ∨ runCycle s = .next t →
      t.imageLoadable = false ∧ loadImage image t = t)

/-! ### The turn and the step -/

/-- R71, R72, R73: a step runs the decoded instruction. With nothing to flush first, the step is the dispatch of
the decoded word in the state after the fetch, followed by the end of the turn: a word from storage (and so any
well-formed instruction whose encoding storage can deliver), or a hook's answer un-normalized; a `pc` at or above
`MEM_SIZE` is first 0; at the start of a cycle the slot is flushed first. -/
def Obligations.StepRunsTheDecodedInstruction : Prop :=
  ∀ s : State, refusalOf s = none → s.halted = false →
    ((s.core = 0 → s.slot = .idle) →
      (s.pc.toNat < memSize s.params → NotReadHooked s s.pc.toNat →
        step s = mapNext endTurn (exec (decode (normalize (cellAt s.mem s.pc.toNat)))
          (traceFetch (normalize (cellAt s.mem s.pc.toNat)) s))) ∧
      (∀ i : Instr, i.wellFormed = true → normalize (encode i) = encode i →
        s.pc.toNat < memSize s.params → NotReadHooked s s.pc.toNat →
        cellAt s.mem s.pc.toNat = encode i →
        step s = mapNext endTurn (exec i (traceFetch (encode i) s))) ∧
      (∀ (k : Nat) (h : Hook), s.pc.toNat < memSize s.params → FirstCovering s s.pc.toNat k h →
        step s = mapNext endTurn (exec (decode (deviceAnswerAt s h s.pc.toNat))
          (traceFetch (deviceAnswerAt s h s.pc.toNat)
            { s with answers := s.answers.tail, draws := s.draws + 1,
                     events := s.events ++ [.readCall k s.pc.toNat (deviceAnswerAt s h s.pc.toNat)] }))) ∧
      (memSize s.params ≤ s.pc.toNat → step s = step { s with pc := 0 })) ∧
    (s.core = 0 → step s = step (flush s))

/-- R70, R76 (with D18, and C1's choice of the flush points; the other reading of 00_scope.md R6 beside it): the
end of a turn flushes the slot, and the next turn is the next core's, or core 0's when the last core has had its
turn or the instance has halted. The host can then load no image any more (R196, log entry 39). -/
def Obligations.TurnEndRule : Prop :=
  ∀ s : State,
    (s.params.readings.flushPoints = .everyTurn →
      (s.halted = true ∨ ncores s.params ≤ s.core + 1 → endTurn s = { flush s with core := 0, imageLoadable := false }) ∧
      (s.halted = false → s.core + 1 < ncores s.params →
        endTurn s = { flush s with core := s.core + 1, imageLoadable := false })) ∧
    (s.params.readings.flushPoints = .endOfCycle →
      (s.halted = true ∨ ncores s.params ≤ s.core + 1 → endTurn s = { flush s with core := 0, imageLoadable := false }) ∧
      (s.halted = false → s.core + 1 < ncores s.params →
        endTurn s = { s with core := s.core + 1, imageLoadable := false }))

/-- R170: the core raises no exception, ever. Every dispatch answers a next state; every step of a configuration in
the ranges of R5, on a core of the roster, answers a next state; only a configuration outside them is refused. -/
def Obligations.NoExceptionEver : Prop :=
  (∀ (i : Instr) (s : State), ∃ t, exec i s = .next t) ∧
  (∀ s : State, s.core < ncores s.params →
    (1 ≤ memSize s.params ∧ memSize s.params ≤ 65536 ∧ ncores s.params ≤ 50 ∧
      s.rhooks.length ≤ 32 ∧ s.whooks.length ≤ 32 ↔ ∃ t, step s = .next t) ∧
    (¬(1 ≤ memSize s.params ∧ memSize s.params ≤ 65536 ∧ ncores s.params ≤ 50 ∧
      s.rhooks.length ≤ 32 ∧ s.whooks.length ≤ 32) → step s = .refused .configurationOutOfRange))

/-- R22, R14, R19, R20: the invariant of a machine between turns is kept by every step. Its clause on the image is
the model's own field (log entry 39, from 70_reset_and_hazards.md R196). -/
def Obligations.EveryStepKeepsTheInvariant : Prop :=
  ∀ s t : State, s.Inv → step s = .next t → t.Inv

/-- The reset state meets the invariant. -/
def Obligations.ResetMeetsTheInvariant : Prop := State.reset.Inv

/-- R23 (D12 for registers, flags, `pc`, halted, slot and trace; log entries 7 and 39 for the model's own fields) and
R190: construction leaves every piece of state at its reset value, storage all zero; the image loaded into it
(`boot`, R192) fills storage, truncated or zero-padded, verbatim, and changes nothing else. -/
def Obligations.ConstructionSetsTheResetValues : Prop :=
  ∀ (p : Params) (image : List Word) (rh wh : List Hook),
    (∀ a, cellAt (boot p image rh wh).mem a = if a < memSize p then image.getD a 0 else 0) ∧
    Memory.wf (boot p image rh wh).mem ∧
    (∀ i, readReg (construct p rh wh) i = 0) ∧
    construct p rh wh =
      { params := p, regs := Vector.replicate 31 0, pc := 0, flags := ⟨false, false, false, false⟩,
        halted := false, slot := .idle, core := 0, imageLoadable := true, mem := [], rhooks := rh,
        whooks := wh, trace := [], answers := [], draws := 0, events := [] } ∧
    boot p image rh wh = { construct p rh wh with mem := (boot p image rh wh).mem, imageLoadable := false }

/-- R23 at State.reset, which is the construction with the parameters of log entry 2 (65536 words, one core that
can multiply: the model's choice) and no hook; loading an empty image leaves storage as it is. -/
def Obligations.ResetIsAConstruction : Prop :=
  State.reset = construct resetParams [] [] ∧ memSize resetParams = 65536 ∧ ncores resetParams = 1 ∧
    boot resetParams [] [] [] = { State.reset with imageLoadable := false } ∧
    ∀ a, cellAt State.reset.mem a = 0

/-- R76 and R78 (with D17: a cycle on a halted instance changes nothing): Halted is terminal, and only a turn that
executes halt leads to it. -/
def Obligations.HaltedIsTerminalAndOnlyByHalt : Prop :=
  (∀ s : State, refusalOf s = none → s.halted = true → step s = .next s ∧ runCycle s = .next s) ∧
  (∀ s t : State, s.slot = .idle → s.halted = false → step s = .next t → t.halted = true →
    (∃ moi rd rs sec, decode (nextWord s) = .halt moi rd rs sec) ∧ t.core = 0 ∧ runCycle t = .next t)

/-- D23, D24, 10_state.md R18: no step changes a construction parameter or a hook list. -/
def Obligations.ParametersAndHooksAreConstant : Prop :=
  ∀ s t : State, step s = .next t →
    t.params = s.params ∧ t.rhooks = s.rhooks ∧ t.whooks = s.whooks

/-- Over all instructions: with the slot idle and a flush after every turn, a step changes no register but the one
its instruction word names in bits 29 to 25, and no flag unless the instruction is one that R17 lets write it. -/
def Obligations.StepChangesOnlyItsDestination : Prop :=
  ∀ s t : State, s.slot = .idle → s.params.readings.flushPoints = .everyTurn → s.halted = false →
    step s = .next t →
      SameRegsExcept (rdOf (nextWord s)).val s t ∧
      FlagsAsTabled (decode (nextWord s)) s.flags t.flags

/-- Over all instructions, R46: only a store changes storage, and only the cell its effective address names, which
is in range and under no write hook; the cell then holds the normalized `x[rd]`. -/
def Obligations.OnlyStoresChangeStorage : Prop :=
  ∀ s t : State, s.slot = .idle → s.params.readings.flushPoints = .everyTurn → s.halted = false →
    Memory.wf s.mem → step s = .next t → ∀ b, cellAt t.mem b ≠ cellAt s.mem b →
      ∃ moi rd rs sec, decode (nextWord s) = .store moi rd rs sec ∧
        b = (effectiveAddress s rs sec).toNat ∧ b < memSize s.params ∧ NotWriteHooked s b ∧
        cellAt t.mem b = normalize (readReg s rd.val)

/-- A store's whole turn (R162, R77, R38, with D9): the cell at the effective address receives the normalized
`x[rd]` and every other cell is unchanged; out of range nothing is stored; under write hooks storage is unchanged
and the hooks' devices are called. Nothing else changes but `pc`, the turn and the trace (and that no image can be loaded
any more, log entry 39). -/
def Obligations.StoreTurnWritesItsCell : Prop :=
  ∀ (s : State) (moi : Bool) (rd rs : Reg) (sec : Operand), Ready s → Memory.wf s.mem →
    s.params.readings.flushPoints = .everyTurn → NotReadHooked s (nextAddress s).toNat →
    decode (nextWord s) = .store moi rd rs sec →
    ∃ t, step s = .next t ∧
      (NotWriteHooked s (effectiveAddress s rs sec).toNat →
        (effectiveAddress s rs sec).toNat < memSize s.params →
        (∀ b, cellAt t.mem b = if b = (effectiveAddress s rs sec).toNat then normalize (readReg s rd.val)
          else cellAt s.mem b) ∧ t.events = s.events) ∧
      (NotWriteHooked s (effectiveAddress s rs sec).toNat →
        memSize s.params ≤ (effectiveAddress s rs sec).toNat → SameStorage s t ∧ t.events = s.events) ∧
      (¬NotWriteHooked s (effectiveAddress s rs sec).toNat →
        SameStorage s t ∧ t.events = s.events ++ s.whooks.zipIdx.filterMap fun p =>
          if p.1.base ≤ (effectiveAddress s rs sec).toNat ∧
              (effectiveAddress s rs sec).toNat ≤ p.1.base + p.1.length then
            some (.writeCall p.2 (readReg s rd.val) ((effectiveAddress s rs sec).toNat - p.1.base))
          else none) ∧
      t = { s with pc := nextAddress s + 1, core := t.core, imageLoadable := false, trace := t.trace,
                   mem := t.mem, events := t.events }

/-- A load's whole turn (R161, R77, R37, with D9 and D20): `x[rd]` receives the normalized word the read answers, no
other register and no cell changes, no flag changes; a read hook's device sees the read, also for r0. Nothing else
changes but `pc`, the turn and the trace (and that no image can be loaded any more, log entry 39). -/
def Obligations.LoadTurnLoadsItsWord : Prop :=
  ∀ (s : State) (moi : Bool) (rd rs : Reg) (sec : Operand), Ready s →
    s.params.readings.flushPoints = .everyTurn → NotReadHooked s (nextAddress s).toNat →
    decode (nextWord s) = .load moi rd rs sec →
    ∃ t, step s = .next t ∧
      DestHolds rd t (memReadWord s (effectiveAddress s rs sec).toNat) ∧ SameRegsExcept rd.val s t ∧
      SameStorage s t ∧
      (NotReadHooked s (effectiveAddress s rs sec).toNat →
        t.events = s.events ∧ t.answers = s.answers ∧ t.draws = s.draws) ∧
      (∀ k h, FirstCovering s (effectiveAddress s rs sec).toNat k h →
        t.events = s.events ++ [.readCall k (effectiveAddress s rs sec).toNat
          (memReadWord s (effectiveAddress s rs sec).toNat)]) ∧
      t = { s with pc := nextAddress s + 1, core := t.core, imageLoadable := false, trace := t.trace, regs := t.regs,
                   answers := t.answers, draws := t.draws, events := t.events }

/-- R44: a store to the address of the next instruction is seen by the very next fetch. -/
def Obligations.NextFetchSeesTheStore : Prop :=
  ∀ (s : State) (moi : Bool) (rd rs : Reg) (sec : Operand), Ready s → Memory.wf s.mem →
    s.params.readings.flushPoints = .everyTurn →
    decode (nextWord s) = .store moi rd rs sec →
    NotWriteHooked s (effectiveAddress s rs sec).toNat →
    NotReadHooked s (effectiveAddress s rs sec).toNat →
    (effectiveAddress s rs sec).toNat < memSize s.params →
    (effectiveAddress s rs sec).toNat = (nextAddress s).toNat + 1 →
    ∃ t, step s = .next t ∧ nextAddress t = nextAddress s + 1 ∧ nextWord t = normalize (readReg s rd.val)

/-- R42(b), R197: a load in the turn after a store to the same cell returns the stored word, whichever core runs
it. -/
def Obligations.LoadAfterStoreReturnsTheStoredWord : Prop :=
  ∀ (s : State) (moi : Bool) (rd rs : Reg) (sec : Operand), Ready s → Memory.wf s.mem →
    s.params.readings.flushPoints = .everyTurn →
    decode (nextWord s) = .store moi rd rs sec →
    NotWriteHooked s (effectiveAddress s rs sec).toNat →
    NotReadHooked s (effectiveAddress s rs sec).toNat →
    (effectiveAddress s rs sec).toNat < memSize s.params →
    ∃ t, step s = .next t ∧
      ∀ moi' rd' rs' sec', decode (nextWord t) = .load moi' rd' rs' sec' →
        effectiveAddress t rs' sec' = effectiveAddress s rs sec →
        ∃ u, step t = .next u ∧ DestHolds rd' u (readReg s rd.val)

/-- R20 and R73 (with D16): the trace entry a turn appends, and when. -/
def Obligations.TraceRecordsTheFetch : Prop :=
  ∀ s t : State, s.slot = .idle → s.halted = false → step s = .next t →
    t.trace =
      if s.params.traceEn = true ∧ s.trace.length < s.params.traceCap then
        s.trace ++ [{ instr := nextWord s, fetchAddr := nextAddress s, rd := rdOf (nextWord s),
                      prim := readReg s (rsOf (nextWord s)).val, sec := secValue s (operandOf (nextWord s)) }]
      else s.trace

/-- R180, R20: tracing changes no other state. Erasing the trace and switching tracing off commutes with a step. -/
def Obligations.TraceIsInvisible : Prop :=
  ∀ s : State, mapNext eraseTrace (step s) = step (eraseTrace s)

/-- R70 and R81: a cycle is one step for each core in index order (and nothing further once halted). That one step is
one core's turn with its flush is the model's granularity (log entry 1, from 40_cycle_engine.md R80). -/
def Obligations.CycleIsOneStepPerCore : Prop :=
  ∀ s : State, refusalOf s = none → s.core = 0 →
    runCycle s = Host.Core.run Sys2Proof.core (ncores s.params) s

/-- R81: an instance that does not halt takes its turns in core order, round and round. -/
def Obligations.CoresTakeTurnsInOrder : Prop :=
  ∀ s t : State, s.halted = false → step s = .next t → t.halted = false →
    t.core = (s.core + 1) % ncores s.params

/-- R151: a synchronized jump whose condition is true is taken only by a core below the last, so the next turn,
which fetches its target, is never core 0's; on the last core it changes no register and `pc` stays. -/
def Obligations.SynchronizedJumpRule : Prop :=
  ∀ (s : State) (moi : Bool) (rd : Reg) (cond : Cond) (sec : Operand), Ready s →
    decode (nextWord s) = .jump moi rd true cond sec → conditionTable s.flags cond = true →
    ∃ t, step s = .next t ∧ t.flags = s.flags ∧
      (s.core + 1 < ncores s.params → t.pc = secValue s sec ∧ t.core = s.core + 1 ∧ t.core ≠ 0) ∧
      (s.core + 1 = ncores s.params → t.pc = nextAddress s ∧ t.regs = s.regs ∧ t.core = 0)

/-- R152: the single-core hang. With one core a synchronized jump whose condition is true changes nothing (but the
trace, a `pc` that had to wrap, and that no image can be loaded any more, log entry 39), and does so at every later step. -/
def Obligations.SingleCoreSynchronizedJumpHangs : Prop :=
  ∀ (s : State) (moi : Bool) (rd : Reg) (cond : Cond) (sec : Operand), Ready s → ncores s.params = 1 →
    NotReadHooked s (nextAddress s).toNat →
    decode (nextWord s) = .jump moi rd true cond sec → conditionTable s.flags cond = true →
    ∀ n, ∃ t, Host.Core.run Sys2Proof.core (n + 1) s = .next t ∧
      t = { s with pc := nextAddress s, imageLoadable := false, trace := t.trace }

/-- 30_encoding.md R63: each of the four words that `normalize` maps to 0, held by the cell at `pc`, executes as
0x00000000, move without a flag request, and changes nothing but `pc` and the turn (and the trace, and that no image
can be loaded any more, log entry 39). -/
def Obligations.UndeliverableWordsExecuteAsZero : Prop :=
  ∀ s : State, Ready s → s.pc.toNat < memSize s.params → NotReadHooked s s.pc.toNat →
    bits (cellAt s.mem s.pc.toNat) 29 0 = 0 →
    nextWord s = 0 ∧ ∃ t, step s = .next t ∧
      t = { s with pc := s.pc + 1, core := t.core, imageLoadable := false, trace := t.trace }

/-- The reading of scenario E that 90_conflicts.md C1 rejects and 00_scope.md R6 keeps as an alternative: before the
last core's turn a load leaves its register alone and the slot armed (70_reset_and_hazards.md R197). -/
def Obligations.EndOfCycleReadingDefersTheLoad : Prop :=
  ∀ (s : State) (moi : Bool) (rd rs : Reg) (sec : Operand), Ready s →
    s.params.readings.flushPoints = .endOfCycle → s.core + 1 < ncores s.params →
    decode (nextWord s) = .load moi rd rs sec →
    ∃ t, step s = .next t ∧ t.slot = .read (effectiveAddress s rs sec) rd ∧ t.regs = s.regs ∧
      t.core = s.core + 1
end

