-- ==== Sys2Proof/Laws/Bits.lean ====
section
/-! SUPPORT. Words and halves down to naturals (00_scope.md R7, 10_state.md R11). -/

namespace Sys2Proof.Machine

@[simp] theorem lo16_toNat (w : Word) : (lo16 w).toNat = w.toNat % 65536 := by
  simp [lo16]

@[simp] theorem hi16_toNat (w : Word) : (hi16 w).toNat = w.toNat / 65536 := by
  simp only [hi16, BitVec.toNat_ofNat]
  have := w.isLt
  omega

@[simp] theorem zext32_toNat (h : Half) : (zext32 h).toNat = h.toNat := by
  simp only [zext32, BitVec.toNat_ofNat]
  have := h.isLt
  omega

@[simp] theorem mergeHalves_toNat (hi lo : Half) :
    (mergeHalves hi lo).toNat = hi.toNat * 65536 + lo.toNat := by
  simp only [mergeHalves, BitVec.toNat_ofNat]
  have := hi.isLt
  have := lo.isLt
  omega

@[simp] theorem lo16_zext32 (h : Half) : lo16 (zext32 h) = h := by
  apply BitVec.eq_of_toNat_eq
  have := h.isLt
  simp only [lo16_toNat, zext32_toNat]
  omega

@[simp] theorem lo16_mergeHalves (hi lo : Half) : lo16 (mergeHalves hi lo) = lo := by
  apply BitVec.eq_of_toNat_eq
  have := lo.isLt
  simp only [lo16_toNat, mergeHalves_toNat]
  omega

@[simp] theorem normalize_zero : normalize 0 = 0 := by decide

/-- The four patterns are those whose low 30 bits are all zero. -/
theorem normalize_eq_mod (w : Word) : normalize w = if w.toNat % 2 ^ 30 = 0 then 0 else w := by
  have hw := w.isLt
  have key : (w = 0x00000000 ∨ w = 0x40000000 ∨ w = 0x80000000 ∨ w = 0xC0000000) ↔
      w.toNat % 2 ^ 30 = 0 := by
    have h0 : (0x00000000 : Word).toNat = 0 := rfl
    have h1 : (0x40000000 : Word).toNat = 2 ^ 30 := rfl
    have h2 : (0x80000000 : Word).toNat = 2 ^ 31 := rfl
    have h3 : (0xC0000000 : Word).toNat = 2 ^ 31 + 2 ^ 30 := rfl
    simp only [← BitVec.toNat_inj, h0, h1, h2, h3]
    omega
  simp only [normalize, key]

@[simp] theorem normalize_idem (w : Word) : normalize (normalize w) = normalize w := by
  by_cases h : w = 0x00000000 ∨ w = 0x40000000 ∨ w = 0x80000000 ∨ w = 0xC0000000
  · rw [show normalize w = 0 from if_pos h]
    exact normalize_zero
  · rw [show normalize w = w from if_neg h]
    exact if_neg h

/-- Normalization never changes a word below 65536. -/
theorem normalize_of_lt (w : Word) (h : w.toNat < 65536) : normalize w = w := by
  rw [normalize_eq_mod]
  split
  · apply BitVec.eq_of_toNat_eq
    have h0 : (0 : Word).toNat = 0 := rfl
    omega
  · rfl

@[simp] theorem normalize_zext32 (h : Half) : normalize (zext32 h) = zext32 h :=
  normalize_of_lt _ (by simpa using h.isLt)

end Sys2Proof.Machine
end

