-- ==== Sys2Proof/Laws/Memory.lean ====
section
/-! SUPPORT. Storage: read after write, and that every storage operation keeps the canonical form. -/

namespace Sys2Proof.Machine

@[simp] theorem cellAt_nil (a : Nat) : cellAt [] a = 0 := rfl

@[simp] theorem cellAt_cons (c : Cell) (m : Memory) (b : Nat) :
    cellAt (c :: m) b = if c.1 = b then c.2 else cellAt m b := rfl

/-- An address no entry lists reads 0. -/
theorem cellAt_of_not_listed {m : Memory} {a : Nat} (h : ∀ c ∈ m, c.1 ≠ a) : cellAt m a = 0 := by
  induction m with
  | nil => rfl
  | cons c rest ih =>
    rw [cellAt_cons, if_neg (h c (by simp))]
    exact ih fun d hd => h d (by simp [hd])

/-- In canonical form nothing after the head lists an address at or below the head's. -/
theorem Memory.wf.cellAt_tail {c : Cell} {m : Memory} (h : Memory.wf (c :: m)) {a : Nat}
    (ha : a ≤ c.1) : cellAt m a = 0 := by
  apply cellAt_of_not_listed
  intro d hd
  have := (List.pairwise_cons.mp h.1).1 d hd
  omega

theorem Memory.wf.tail {c : Cell} {m : Memory} (h : Memory.wf (c :: m)) : Memory.wf m :=
  ⟨(List.pairwise_cons.mp h.1).2, fun d hd => h.2 d (by simp [hd])⟩

/-- Read after write, at the written address and at every other. -/
theorem cellAt_cellSet {m : Memory} (h : Memory.wf m) (a b : Nat) (v : Word) :
    cellAt (cellSet m a v) b = if b = a then v else cellAt m b := by
  induction m with
  | nil =>
    unfold cellSet
    split
    · next hv => simp [hv]
    · simp [eq_comm]
  | cons c rest ih =>
    obtain ⟨k, w⟩ := c
    have hd := @Memory.wf.cellAt_tail _ _ h
    simp only [cellSet]
    split
    · next hlt =>
      have h0 : cellAt rest a = 0 := hd (by simp; omega)
      split
      · next hv =>
        simp only [cellAt_cons]
        by_cases hb : b = a
        · subst hb; simp [h0, hv]; omega
        · simp [hb]
      · simp only [cellAt_cons]
        by_cases hb : b = a
        · simp [hb]
        · have : ¬ a = b := fun e => hb e.symm
          simp [hb, this]
    · split
      · next heq =>
        subst heq
        have h0 : cellAt rest a = 0 := hd (by simp)
        split
        · next hv =>
          by_cases hb : b = a
          · subst hb; simp [h0, hv]
          · have : ¬ a = b := fun e => hb e.symm
            simp [hb, this]
        · simp only [cellAt_cons]
          by_cases hb : b = a
          · simp [hb]
          · have : ¬ a = b := fun e => hb e.symm
            simp [hb, this]
      · next hne =>
        simp only [cellAt_cons, ih h.tail]
        by_cases hb : b = a
        · subst hb
          have : ¬ k = b := fun e => hne e.symm
          simp [this]
        · simp [hb]

/-- What a write can leave listed: an old entry, or the written cell. -/
theorem mem_cellSet {m : Memory} {a : Nat} {v : Word} {c : Cell} (hc : c ∈ cellSet m a v) :
    c ∈ m ∨ (c = (a, v) ∧ v ≠ 0) := by
  induction m with
  | nil =>
    unfold cellSet at hc
    split at hc
    · simp at hc
    · next hv => exact .inr ⟨by simpa using hc, hv⟩
  | cons d rest ih =>
    obtain ⟨k, w⟩ := d
    simp only [cellSet] at hc
    split at hc
    · split at hc
      · exact .inl hc
      · next hv =>
        rcases List.mem_cons.mp hc with e | e
        · exact .inr ⟨e, hv⟩
        · exact .inl e
    · split at hc
      · split at hc
        · exact .inl (by simp [hc])
        · next hv =>
          rcases List.mem_cons.mp hc with e | e
          · exact .inr ⟨e, hv⟩
          · exact .inl (by simp [e])
      · rcases List.mem_cons.mp hc with e | e
        · exact .inl (by simp [e])
        · rcases ih e with e' | e'
          · exact .inl (by simp [e'])
          · exact .inr e'

/-- A write keeps the canonical form. -/
theorem cellSet_wf {m : Memory} (h : Memory.wf m) (a : Nat) (v : Word) :
    Memory.wf (cellSet m a v) := by
  refine ⟨?_, fun c hc => ?_⟩
  · induction m with
    | nil => unfold cellSet; split <;> simp
    | cons d rest ih =>
      obtain ⟨k, w⟩ := d
      have hp := List.pairwise_cons.mp h.1
      simp only [cellSet]
      split
      · next hlt =>
        split
        · exact h.1
        · refine List.pairwise_cons.mpr ⟨fun c hc => ?_, h.1⟩
          rcases List.mem_cons.mp hc with e | e
          · subst e; exact hlt
          · have := hp.1 c e; simp at this ⊢; omega
      · split
        · next heq =>
          subst heq
          split
          · exact hp.2
          · exact List.pairwise_cons.mpr ⟨fun c hc => hp.1 c hc, hp.2⟩
        · refine List.pairwise_cons.mpr ⟨fun c hc => ?_, ih h.tail⟩
          rcases mem_cellSet hc with e | ⟨e, _⟩
          · exact hp.1 c e
          · subst e; simp; omega
  · rcases mem_cellSet hc with e | ⟨e, hv⟩
    · exact h.2 c e
    · subst e; exact hv

/-- Canonical storage is determined by what it reads as. -/
theorem memory_ext {m n : Memory} (hm : Memory.wf m) (hn : Memory.wf n)
    (h : ∀ a, cellAt m a = cellAt n a) : m = n := by
  induction m generalizing n with
  | nil =>
    cases n with
    | nil => rfl
    | cons d rest =>
      have := h d.1
      simp at this
      exact absurd this.symm (hn.2 d (by simp))
  | cons c rest ih =>
    cases n with
    | nil =>
      have := h c.1
      simp at this
      exact absurd this (hm.2 c (by simp))
    | cons d rest' =>
      have key : c.1 = d.1 := by
        rcases Nat.lt_trichotomy c.1 d.1 with hlt | heq | hgt
        · have := h c.1
          rw [cellAt_cons, if_pos rfl, cellAt_cons, if_neg (by omega),
            hn.cellAt_tail (by omega)] at this
          exact absurd this (hm.2 c (by simp))
        · exact heq
        · have := h d.1
          rw [cellAt_cons, if_neg (by omega), cellAt_cons, if_pos rfl,
            hm.cellAt_tail (by omega)] at this
          exact absurd this.symm (hn.2 d (by simp))
      have hv : c.2 = d.2 := by
        have := h c.1
        simpa [key] using this
      have ht : rest = rest' := by
        apply ih hm.tail hn.tail
        intro a
        by_cases ha : c.1 = a
        · subst ha
          rw [hm.cellAt_tail (Nat.le_refl _), hn.cellAt_tail (by omega)]
        · have := h a
          rwa [cellAt_cons, if_neg ha, cellAt_cons, if_neg (by omega)] at this
      rw [ht, Prod.ext key hv]

/-- Every cell of an image lies in the range it is loaded to. -/
theorem mem_imageCells {base : Nat} {image : List Word} {c : Cell} (hc : c ∈ imageCells base image) :
    base ≤ c.1 ∧ c.1 < base + image.length ∧ c.2 ≠ 0 := by
  induction image generalizing base with
  | nil => simp [imageCells] at hc
  | cons w rest ih =>
    simp only [imageCells] at hc
    split at hc
    · obtain ⟨h1, h2, h3⟩ := ih hc
      exact ⟨by omega, by simp; omega, h3⟩
    · next hw =>
      rcases List.mem_cons.mp hc with e | e
      · subst e; exact ⟨by simp, by simp, hw⟩
      · obtain ⟨h1, h2, h3⟩ := ih e
        exact ⟨by omega, by simp; omega, h3⟩

/-- A loaded image is in canonical form. -/
theorem imageCells_wf (base : Nat) (image : List Word) : Memory.wf (imageCells base image) := by
  refine ⟨?_, fun c hc => (mem_imageCells hc).2.2⟩
  induction image generalizing base with
  | nil => simp [imageCells]
  | cons w rest ih =>
    simp only [imageCells]
    split
    · exact ih _
    · refine List.pairwise_cons.mpr ⟨fun c hc => ?_, ih _⟩
      have := (mem_imageCells hc).1
      simp; omega

end Sys2Proof.Machine
end

