-- ==== Sys2Proof/Laws/State.lean ====
section
/-! SUPPORT. One lemma per field per update of State (all by rfl), so that no proof unfolds a record
update; and, for the operations that branch, one lemma per field they leave alone. -/

namespace Sys2Proof.Machine

variable (s : State)

/-! ### writeReg -/

@[simp] theorem writeReg_params (i : Nat) (v : Word) : (writeReg i v s).params = s.params := rfl
@[simp] theorem writeReg_regs (i : Nat) (v : Word) : (writeReg i v s).regs = regsAfterWrite s.regs i v := rfl
@[simp] theorem writeReg_pc (i : Nat) (v : Word) : (writeReg i v s).pc = s.pc := rfl
@[simp] theorem writeReg_flags (i : Nat) (v : Word) : (writeReg i v s).flags = s.flags := rfl
@[simp] theorem writeReg_halted (i : Nat) (v : Word) : (writeReg i v s).halted = s.halted := rfl
@[simp] theorem writeReg_slot (i : Nat) (v : Word) : (writeReg i v s).slot = s.slot := rfl
@[simp] theorem writeReg_core (i : Nat) (v : Word) : (writeReg i v s).core = s.core := rfl
@[simp] theorem writeReg_imageLoadable (i : Nat) (v : Word) : (writeReg i v s).imageLoadable = s.imageLoadable := rfl
@[simp] theorem writeReg_mem (i : Nat) (v : Word) : (writeReg i v s).mem = s.mem := rfl
@[simp] theorem writeReg_rhooks (i : Nat) (v : Word) : (writeReg i v s).rhooks = s.rhooks := rfl
@[simp] theorem writeReg_whooks (i : Nat) (v : Word) : (writeReg i v s).whooks = s.whooks := rfl
@[simp] theorem writeReg_trace (i : Nat) (v : Word) : (writeReg i v s).trace = s.trace := rfl
@[simp] theorem writeReg_answers (i : Nat) (v : Word) : (writeReg i v s).answers = s.answers := rfl
@[simp] theorem writeReg_draws (i : Nat) (v : Word) : (writeReg i v s).draws = s.draws := rfl
@[simp] theorem writeReg_events (i : Nat) (v : Word) : (writeReg i v s).events = s.events := rfl

/-! ### advance -/

@[simp] theorem advance_params : (advance s).params = s.params := rfl
@[simp] theorem advance_regs : (advance s).regs = s.regs := rfl
@[simp] theorem advance_pc : (advance s).pc = s.pc + 1 := rfl
@[simp] theorem advance_flags : (advance s).flags = s.flags := rfl
@[simp] theorem advance_halted : (advance s).halted = s.halted := rfl
@[simp] theorem advance_slot : (advance s).slot = s.slot := rfl
@[simp] theorem advance_core : (advance s).core = s.core := rfl
@[simp] theorem advance_imageLoadable : (advance s).imageLoadable = s.imageLoadable := rfl
@[simp] theorem advance_mem : (advance s).mem = s.mem := rfl
@[simp] theorem advance_rhooks : (advance s).rhooks = s.rhooks := rfl
@[simp] theorem advance_whooks : (advance s).whooks = s.whooks := rfl
@[simp] theorem advance_trace : (advance s).trace = s.trace := rfl
@[simp] theorem advance_answers : (advance s).answers = s.answers := rfl
@[simp] theorem advance_draws : (advance s).draws = s.draws := rfl
@[simp] theorem advance_events : (advance s).events = s.events := rfl

/-! ### redirect -/

@[simp] theorem redirect_params (w : Word) : (redirect w s).params = s.params := rfl
@[simp] theorem redirect_regs (w : Word) : (redirect w s).regs = s.regs := rfl
@[simp] theorem redirect_pc (w : Word) : (redirect w s).pc = w := rfl
@[simp] theorem redirect_flags (w : Word) : (redirect w s).flags = s.flags := rfl
@[simp] theorem redirect_halted (w : Word) : (redirect w s).halted = s.halted := rfl
@[simp] theorem redirect_slot (w : Word) : (redirect w s).slot = s.slot := rfl
@[simp] theorem redirect_core (w : Word) : (redirect w s).core = s.core := rfl
@[simp] theorem redirect_imageLoadable (w : Word) : (redirect w s).imageLoadable = s.imageLoadable := rfl
@[simp] theorem redirect_mem (w : Word) : (redirect w s).mem = s.mem := rfl
@[simp] theorem redirect_rhooks (w : Word) : (redirect w s).rhooks = s.rhooks := rfl
@[simp] theorem redirect_whooks (w : Word) : (redirect w s).whooks = s.whooks := rfl
@[simp] theorem redirect_trace (w : Word) : (redirect w s).trace = s.trace := rfl
@[simp] theorem redirect_answers (w : Word) : (redirect w s).answers = s.answers := rfl
@[simp] theorem redirect_draws (w : Word) : (redirect w s).draws = s.draws := rfl
@[simp] theorem redirect_events (w : Word) : (redirect w s).events = s.events := rfl

/-! ### wrapPc -/

@[simp] theorem wrapPc_params : (wrapPc s).params = s.params := rfl
@[simp] theorem wrapPc_regs : (wrapPc s).regs = s.regs := rfl
@[simp] theorem wrapPc_pc : (wrapPc s).pc = if memSize s.params ≤ s.pc.toNat then 0 else s.pc := rfl
@[simp] theorem wrapPc_flags : (wrapPc s).flags = s.flags := rfl
@[simp] theorem wrapPc_halted : (wrapPc s).halted = s.halted := rfl
@[simp] theorem wrapPc_slot : (wrapPc s).slot = s.slot := rfl
@[simp] theorem wrapPc_core : (wrapPc s).core = s.core := rfl
@[simp] theorem wrapPc_imageLoadable : (wrapPc s).imageLoadable = s.imageLoadable := rfl
@[simp] theorem wrapPc_mem : (wrapPc s).mem = s.mem := rfl
@[simp] theorem wrapPc_rhooks : (wrapPc s).rhooks = s.rhooks := rfl
@[simp] theorem wrapPc_whooks : (wrapPc s).whooks = s.whooks := rfl
@[simp] theorem wrapPc_trace : (wrapPc s).trace = s.trace := rfl
@[simp] theorem wrapPc_answers : (wrapPc s).answers = s.answers := rfl
@[simp] theorem wrapPc_draws : (wrapPc s).draws = s.draws := rfl
@[simp] theorem wrapPc_events : (wrapPc s).events = s.events := rfl

/-! ### commitFlags -/

@[simp] theorem commitFlags_params (q : Bool) (u : FlagUpdate) : (commitFlags q u s).params = s.params := rfl
@[simp] theorem commitFlags_regs (q : Bool) (u : FlagUpdate) : (commitFlags q u s).regs = s.regs := rfl
@[simp] theorem commitFlags_pc (q : Bool) (u : FlagUpdate) : (commitFlags q u s).pc = s.pc := rfl
@[simp] theorem commitFlags_flags (q : Bool) (u : FlagUpdate) : (commitFlags q u s).flags = if q then applyUpdate u s.flags else s.flags := rfl
@[simp] theorem commitFlags_halted (q : Bool) (u : FlagUpdate) : (commitFlags q u s).halted = s.halted := rfl
@[simp] theorem commitFlags_slot (q : Bool) (u : FlagUpdate) : (commitFlags q u s).slot = s.slot := rfl
@[simp] theorem commitFlags_core (q : Bool) (u : FlagUpdate) : (commitFlags q u s).core = s.core := rfl
@[simp] theorem commitFlags_imageLoadable (q : Bool) (u : FlagUpdate) : (commitFlags q u s).imageLoadable = s.imageLoadable := rfl
@[simp] theorem commitFlags_mem (q : Bool) (u : FlagUpdate) : (commitFlags q u s).mem = s.mem := rfl
@[simp] theorem commitFlags_rhooks (q : Bool) (u : FlagUpdate) : (commitFlags q u s).rhooks = s.rhooks := rfl
@[simp] theorem commitFlags_whooks (q : Bool) (u : FlagUpdate) : (commitFlags q u s).whooks = s.whooks := rfl
@[simp] theorem commitFlags_trace (q : Bool) (u : FlagUpdate) : (commitFlags q u s).trace = s.trace := rfl
@[simp] theorem commitFlags_answers (q : Bool) (u : FlagUpdate) : (commitFlags q u s).answers = s.answers := rfl
@[simp] theorem commitFlags_draws (q : Bool) (u : FlagUpdate) : (commitFlags q u s).draws = s.draws := rfl
@[simp] theorem commitFlags_events (q : Bool) (u : FlagUpdate) : (commitFlags q u s).events = s.events := rfl

/-! ### setHalted -/

@[simp] theorem setHalted_params : (setHalted s).params = s.params := rfl
@[simp] theorem setHalted_regs : (setHalted s).regs = s.regs := rfl
@[simp] theorem setHalted_pc : (setHalted s).pc = s.pc := rfl
@[simp] theorem setHalted_flags : (setHalted s).flags = s.flags := rfl
@[simp] theorem setHalted_halted : (setHalted s).halted = true := rfl
@[simp] theorem setHalted_slot : (setHalted s).slot = s.slot := rfl
@[simp] theorem setHalted_core : (setHalted s).core = s.core := rfl
@[simp] theorem setHalted_imageLoadable : (setHalted s).imageLoadable = s.imageLoadable := rfl
@[simp] theorem setHalted_mem : (setHalted s).mem = s.mem := rfl
@[simp] theorem setHalted_rhooks : (setHalted s).rhooks = s.rhooks := rfl
@[simp] theorem setHalted_whooks : (setHalted s).whooks = s.whooks := rfl
@[simp] theorem setHalted_trace : (setHalted s).trace = s.trace := rfl
@[simp] theorem setHalted_answers : (setHalted s).answers = s.answers := rfl
@[simp] theorem setHalted_draws : (setHalted s).draws = s.draws := rfl
@[simp] theorem setHalted_events : (setHalted s).events = s.events := rfl

/-! ### setSlot -/

@[simp] theorem setSlot_params (p : Slot) : (setSlot p s).params = s.params := rfl
@[simp] theorem setSlot_regs (p : Slot) : (setSlot p s).regs = s.regs := rfl
@[simp] theorem setSlot_pc (p : Slot) : (setSlot p s).pc = s.pc := rfl
@[simp] theorem setSlot_flags (p : Slot) : (setSlot p s).flags = s.flags := rfl
@[simp] theorem setSlot_halted (p : Slot) : (setSlot p s).halted = s.halted := rfl
@[simp] theorem setSlot_slot (p : Slot) : (setSlot p s).slot = p := rfl
@[simp] theorem setSlot_core (p : Slot) : (setSlot p s).core = s.core := rfl
@[simp] theorem setSlot_imageLoadable (p : Slot) : (setSlot p s).imageLoadable = s.imageLoadable := rfl
@[simp] theorem setSlot_mem (p : Slot) : (setSlot p s).mem = s.mem := rfl
@[simp] theorem setSlot_rhooks (p : Slot) : (setSlot p s).rhooks = s.rhooks := rfl
@[simp] theorem setSlot_whooks (p : Slot) : (setSlot p s).whooks = s.whooks := rfl
@[simp] theorem setSlot_trace (p : Slot) : (setSlot p s).trace = s.trace := rfl
@[simp] theorem setSlot_answers (p : Slot) : (setSlot p s).answers = s.answers := rfl
@[simp] theorem setSlot_draws (p : Slot) : (setSlot p s).draws = s.draws := rfl
@[simp] theorem setSlot_events (p : Slot) : (setSlot p s).events = s.events := rfl

/-! ### traceFetch -/

@[simp] theorem traceFetch_params (w : Word) : (traceFetch w s).params = s.params := rfl
@[simp] theorem traceFetch_regs (w : Word) : (traceFetch w s).regs = s.regs := rfl
@[simp] theorem traceFetch_pc (w : Word) : (traceFetch w s).pc = s.pc := rfl
@[simp] theorem traceFetch_flags (w : Word) : (traceFetch w s).flags = s.flags := rfl
@[simp] theorem traceFetch_halted (w : Word) : (traceFetch w s).halted = s.halted := rfl
@[simp] theorem traceFetch_slot (w : Word) : (traceFetch w s).slot = s.slot := rfl
@[simp] theorem traceFetch_core (w : Word) : (traceFetch w s).core = s.core := rfl
@[simp] theorem traceFetch_imageLoadable (w : Word) : (traceFetch w s).imageLoadable = s.imageLoadable := rfl
@[simp] theorem traceFetch_mem (w : Word) : (traceFetch w s).mem = s.mem := rfl
@[simp] theorem traceFetch_rhooks (w : Word) : (traceFetch w s).rhooks = s.rhooks := rfl
@[simp] theorem traceFetch_whooks (w : Word) : (traceFetch w s).whooks = s.whooks := rfl
@[simp] theorem traceFetch_trace (w : Word) : (traceFetch w s).trace = if s.params.traceEn ∧ s.trace.length < s.params.traceCap then s.trace ++ [traceEntryOf w s]
      else s.trace := rfl
@[simp] theorem traceFetch_answers (w : Word) : (traceFetch w s).answers = s.answers := rfl
@[simp] theorem traceFetch_draws (w : Word) : (traceFetch w s).draws = s.draws := rfl
@[simp] theorem traceFetch_events (w : Word) : (traceFetch w s).events = s.events := rfl

/-! ### memReadEffect, memWrite, flush, endTurn: the fields they never change -/

@[simp] theorem memReadEffect_params (a : Nat) : (memReadEffect a s).params = s.params := by
  unfold memReadEffect; split <;> rfl
@[simp] theorem memReadEffect_regs (a : Nat) : (memReadEffect a s).regs = s.regs := by
  unfold memReadEffect; split <;> rfl
@[simp] theorem memReadEffect_pc (a : Nat) : (memReadEffect a s).pc = s.pc := by
  unfold memReadEffect; split <;> rfl
@[simp] theorem memReadEffect_flags (a : Nat) : (memReadEffect a s).flags = s.flags := by
  unfold memReadEffect; split <;> rfl
@[simp] theorem memReadEffect_halted (a : Nat) : (memReadEffect a s).halted = s.halted := by
  unfold memReadEffect; split <;> rfl
@[simp] theorem memReadEffect_slot (a : Nat) : (memReadEffect a s).slot = s.slot := by
  unfold memReadEffect; split <;> rfl
@[simp] theorem memReadEffect_core (a : Nat) : (memReadEffect a s).core = s.core := by
  unfold memReadEffect; split <;> rfl
@[simp] theorem memReadEffect_imageLoadable (a : Nat) : (memReadEffect a s).imageLoadable = s.imageLoadable := by
  unfold memReadEffect; split <;> rfl
@[simp] theorem memReadEffect_mem (a : Nat) : (memReadEffect a s).mem = s.mem := by
  unfold memReadEffect; split <;> rfl
@[simp] theorem memReadEffect_rhooks (a : Nat) : (memReadEffect a s).rhooks = s.rhooks := by
  unfold memReadEffect; split <;> rfl
@[simp] theorem memReadEffect_whooks (a : Nat) : (memReadEffect a s).whooks = s.whooks := by
  unfold memReadEffect; split <;> rfl
@[simp] theorem memReadEffect_trace (a : Nat) : (memReadEffect a s).trace = s.trace := by
  unfold memReadEffect; split <;> rfl
@[simp] theorem memWrite_params (a : Nat) (v : Word) : (memWrite a v s).params = s.params := by
  unfold memWrite; split
  · split <;> rfl
  · rfl
@[simp] theorem memWrite_regs (a : Nat) (v : Word) : (memWrite a v s).regs = s.regs := by
  unfold memWrite; split
  · split <;> rfl
  · rfl
@[simp] theorem memWrite_pc (a : Nat) (v : Word) : (memWrite a v s).pc = s.pc := by
  unfold memWrite; split
  · split <;> rfl
  · rfl
@[simp] theorem memWrite_flags (a : Nat) (v : Word) : (memWrite a v s).flags = s.flags := by
  unfold memWrite; split
  · split <;> rfl
  · rfl
@[simp] theorem memWrite_halted (a : Nat) (v : Word) : (memWrite a v s).halted = s.halted := by
  unfold memWrite; split
  · split <;> rfl
  · rfl
@[simp] theorem memWrite_slot (a : Nat) (v : Word) : (memWrite a v s).slot = s.slot := by
  unfold memWrite; split
  · split <;> rfl
  · rfl
@[simp] theorem memWrite_core (a : Nat) (v : Word) : (memWrite a v s).core = s.core := by
  unfold memWrite; split
  · split <;> rfl
  · rfl
@[simp] theorem memWrite_imageLoadable (a : Nat) (v : Word) : (memWrite a v s).imageLoadable = s.imageLoadable := by
  unfold memWrite; split
  · split <;> rfl
  · rfl
@[simp] theorem memWrite_rhooks (a : Nat) (v : Word) : (memWrite a v s).rhooks = s.rhooks := by
  unfold memWrite; split
  · split <;> rfl
  · rfl
@[simp] theorem memWrite_whooks (a : Nat) (v : Word) : (memWrite a v s).whooks = s.whooks := by
  unfold memWrite; split
  · split <;> rfl
  · rfl
@[simp] theorem memWrite_trace (a : Nat) (v : Word) : (memWrite a v s).trace = s.trace := by
  unfold memWrite; split
  · split <;> rfl
  · rfl
@[simp] theorem memWrite_answers (a : Nat) (v : Word) : (memWrite a v s).answers = s.answers := by
  unfold memWrite; split
  · split <;> rfl
  · rfl
@[simp] theorem memWrite_draws (a : Nat) (v : Word) : (memWrite a v s).draws = s.draws := by
  unfold memWrite; split
  · split <;> rfl
  · rfl
@[simp] theorem flush_params : (flush s).params = s.params := by
  unfold flush; split <;> simp
@[simp] theorem flush_pc : (flush s).pc = s.pc := by
  unfold flush; split <;> simp
@[simp] theorem flush_flags : (flush s).flags = s.flags := by
  unfold flush; split <;> simp
@[simp] theorem flush_halted : (flush s).halted = s.halted := by
  unfold flush; split <;> simp
@[simp] theorem flush_core : (flush s).core = s.core := by
  unfold flush; split <;> simp
@[simp] theorem flush_imageLoadable : (flush s).imageLoadable = s.imageLoadable := by
  unfold flush; split <;> simp
@[simp] theorem flush_rhooks : (flush s).rhooks = s.rhooks := by
  unfold flush; split <;> simp
@[simp] theorem flush_whooks : (flush s).whooks = s.whooks := by
  unfold flush; split <;> simp
@[simp] theorem flush_trace : (flush s).trace = s.trace := by
  unfold flush; split <;> simp
@[simp] theorem flush_slot : (flush s).slot = .idle := by
  unfold flush; split <;> simp_all
@[simp] theorem flushAfterTurn_params : (flushAfterTurn s).params = s.params := by
  unfold flushAfterTurn; split
  · simp
  · split <;> simp
@[simp] theorem flushAfterTurn_pc : (flushAfterTurn s).pc = s.pc := by
  unfold flushAfterTurn; split
  · simp
  · split <;> simp
@[simp] theorem flushAfterTurn_flags : (flushAfterTurn s).flags = s.flags := by
  unfold flushAfterTurn; split
  · simp
  · split <;> simp
@[simp] theorem flushAfterTurn_halted : (flushAfterTurn s).halted = s.halted := by
  unfold flushAfterTurn; split
  · simp
  · split <;> simp
@[simp] theorem flushAfterTurn_core : (flushAfterTurn s).core = s.core := by
  unfold flushAfterTurn; split
  · simp
  · split <;> simp
@[simp] theorem flushAfterTurn_imageLoadable : (flushAfterTurn s).imageLoadable = s.imageLoadable := by
  unfold flushAfterTurn; split
  · simp
  · split <;> simp
@[simp] theorem flushAfterTurn_rhooks : (flushAfterTurn s).rhooks = s.rhooks := by
  unfold flushAfterTurn; split
  · simp
  · split <;> simp
@[simp] theorem flushAfterTurn_whooks : (flushAfterTurn s).whooks = s.whooks := by
  unfold flushAfterTurn; split
  · simp
  · split <;> simp
@[simp] theorem flushAfterTurn_trace : (flushAfterTurn s).trace = s.trace := by
  unfold flushAfterTurn; split
  · simp
  · split <;> simp
@[simp] theorem endTurn_params : (endTurn s).params = s.params := by simp [endTurn]
@[simp] theorem endTurn_pc : (endTurn s).pc = s.pc := by simp [endTurn]
@[simp] theorem endTurn_flags : (endTurn s).flags = s.flags := by simp [endTurn]
@[simp] theorem endTurn_halted : (endTurn s).halted = s.halted := by simp [endTurn]
@[simp] theorem endTurn_rhooks : (endTurn s).rhooks = s.rhooks := by simp [endTurn]
@[simp] theorem endTurn_whooks : (endTurn s).whooks = s.whooks := by simp [endTurn]
@[simp] theorem endTurn_trace : (endTurn s).trace = s.trace := by simp [endTurn]
@[simp] theorem endTurn_core :
    (endTurn s).core = if cycleEnds s then 0 else s.core + 1 := rfl
@[simp] theorem endTurn_imageLoadable : (endTurn s).imageLoadable = false := rfl
@[simp] theorem endTurn_regs : (endTurn s).regs = (flushAfterTurn s).regs := rfl
@[simp] theorem endTurn_mem : (endTurn s).mem = (flushAfterTurn s).mem := rfl
@[simp] theorem endTurn_slot : (endTurn s).slot = (flushAfterTurn s).slot := rfl
@[simp] theorem endTurn_answers : (endTurn s).answers = (flushAfterTurn s).answers := rfl
@[simp] theorem endTurn_draws : (endTurn s).draws = (flushAfterTurn s).draws := rfl
@[simp] theorem endTurn_events : (endTurn s).events = (flushAfterTurn s).events := rfl
@[simp] theorem beginTurn_params : (beginTurn s).params = s.params := by
  unfold beginTurn; split <;> simp
@[simp] theorem beginTurn_pc : (beginTurn s).pc = s.pc := by
  unfold beginTurn; split <;> simp
@[simp] theorem beginTurn_flags : (beginTurn s).flags = s.flags := by
  unfold beginTurn; split <;> simp
@[simp] theorem beginTurn_halted : (beginTurn s).halted = s.halted := by
  unfold beginTurn; split <;> simp
@[simp] theorem beginTurn_core : (beginTurn s).core = s.core := by
  unfold beginTurn; split <;> simp
@[simp] theorem beginTurn_imageLoadable : (beginTurn s).imageLoadable = s.imageLoadable := by
  unfold beginTurn; split <;> simp
@[simp] theorem beginTurn_rhooks : (beginTurn s).rhooks = s.rhooks := by
  unfold beginTurn; split <;> simp
@[simp] theorem beginTurn_whooks : (beginTurn s).whooks = s.whooks := by
  unfold beginTurn; split <;> simp
@[simp] theorem beginTurn_trace : (beginTurn s).trace = s.trace := by
  unfold beginTurn; split <;> simp

end Sys2Proof.Machine
end

