-- ==== Sys2Proof/Laws/Registers.lean ====
section
/-! SUPPORT. The register read and write (10_state.md R13, R14) and operations that leave registers alone. -/

namespace Sys2Proof.Machine

/-- Reading depends on the register file alone. -/
theorem readReg_congr {s t : State} (h : t.regs = s.regs) (i : Nat) : readReg t i = readReg s i := by
  simp only [readReg, h]

@[simp] theorem readReg_zero (s : State) : readReg s 0 = 0 := by simp [readReg]

/-- Read after write, for every pair of indices. -/
theorem readReg_writeReg (s : State) (i j : Nat) (v : Word) :
    readReg (writeReg i v s) j = if j = i ∧ 1 ≤ i ∧ i ≤ 31 then normalize v else readReg s j := by
  by_cases hi : 1 ≤ i ∧ i ≤ 31
  · by_cases hj : 1 ≤ j ∧ j ≤ 31
    · simp only [readReg, hj, and_self, dite_true, writeReg_regs, regsAfterWrite, hi]
      by_cases e : j = i
      · subst e; simp
      · rw [Vector.getElem_set_ne (h := by omega)]
        simp [e]
    · have e : ¬ j = i := fun e => hj (e ▸ hi)
      simp only [readReg, hj, dite_false, e, false_and, if_false]
  · have : (writeReg i v s).regs = s.regs := by simp only [writeReg_regs, regsAfterWrite, hi, dite_false]
    rw [readReg_congr this, if_neg (fun h => hi h.2)]

/-- Writing through a 5-bit index: r0 reads 0, the destination the normalized word, the others as before. -/
theorem readReg_writeReg_reg (s : State) (rd : Reg) (j : Nat) (v : Word) :
    readReg (writeReg rd.val v s) j =
      if j = rd.val then (if rd = 0 then 0 else normalize v) else readReg s j := by
  rw [readReg_writeReg]
  by_cases e : j = rd.val
  · by_cases z : rd = 0
    · subst z; subst e; simp
    · have : 1 ≤ rd.val := by
        rcases Nat.eq_zero_or_pos rd.val with h | h
        · exact absurd (Fin.ext h) z
        · exact h
      have := rd.isLt
      rw [if_pos ⟨e, by omega, by omega⟩, if_pos e, if_neg z]
  · rw [if_neg (fun h => e h.1), if_neg e]

@[simp] theorem readReg_advance (s : State) (i : Nat) : readReg (advance s) i = readReg s i := rfl
@[simp] theorem readReg_redirect (s : State) (w : Word) (i : Nat) :
    readReg (redirect w s) i = readReg s i := rfl
@[simp] theorem readReg_wrapPc (s : State) (i : Nat) : readReg (wrapPc s) i = readReg s i := rfl
@[simp] theorem readReg_commitFlags (s : State) (q : Bool) (u : FlagUpdate) (i : Nat) :
    readReg (commitFlags q u s) i = readReg s i := rfl
@[simp] theorem readReg_setHalted (s : State) (i : Nat) : readReg (setHalted s) i = readReg s i := rfl
@[simp] theorem readReg_setSlot (s : State) (p : Slot) (i : Nat) :
    readReg (setSlot p s) i = readReg s i := rfl
@[simp] theorem readReg_traceFetch (s : State) (w : Word) (i : Nat) :
    readReg (traceFetch w s) i = readReg s i := rfl
@[simp] theorem readReg_memReadEffect (s : State) (a i : Nat) :
    readReg (memReadEffect a s) i = readReg s i := readReg_congr (by simp) i
@[simp] theorem readReg_memWrite (s : State) (a : Nat) (v : Word) (i : Nat) :
    readReg (memWrite a v s) i = readReg s i := readReg_congr (by simp) i

end Sys2Proof.Machine
end

