-- ==== Sys2Proof/Laws/Ops.lean ====
section
/-! SUPPORT. What the shared operations over hooks, memory, the slot and the turn can do, said once. -/

namespace Sys2Proof.Machine

/-! ### Operands as naturals -/

theorem lo16_primValue_toNat (s : State) (rs : Reg) : (lo16 (primValue s rs)).toNat = primHalf s rs := by
  rw [lo16_toNat, primHalf]

theorem lo16_secValue_toNat (s : State) (sec : Operand) : (lo16 (secValue s sec)).toNat = secHalf s sec := by
  rw [lo16_toNat, secHalf]

theorem primHalf_lt (s : State) (rs : Reg) : primHalf s rs < 65536 := Nat.mod_lt _ (by decide)

theorem secHalf_lt (s : State) (sec : Operand) : secHalf s sec < 65536 := Nat.mod_lt _ (by decide)

/-! ### Hooks and the read primitive -/

theorem firstReadHook_eq_none {s : State} {a : Nat} :
    firstReadHook s a = none ↔ NotReadHooked s a := by
  simp only [firstReadHook, List.find?_eq_none, NotReadHooked, covers, decide_eq_true_eq]
  constructor
  · intro h k hk
    obtain ⟨i, hi, e⟩ := List.mem_iff_getElem.mp hk
    exact h (k, i) (by rw [List.mem_zipIdx_iff_getElem?]; simp [← e, hi])
  · rintro h ⟨k, i⟩ hk
    rw [List.mem_zipIdx_iff_getElem?] at hk
    exact h k (List.mem_of_getElem? hk)

theorem memReadWord_of_notHooked {s : State} {a : Nat} (h : NotReadHooked s a) :
    memReadWord s a = if a < memSize s.params then normalize (cellAt s.mem a) else 0 := by
  simp only [memReadWord, firstReadHook_eq_none.mpr h]

theorem memReadEffect_of_notHooked {s : State} {a : Nat} (h : NotReadHooked s a) :
    memReadEffect a s = s := by
  simp only [memReadEffect, firstReadHook_eq_none.mpr h]

/-- A read looks at the parameters, the read hooks, storage and the devices only. -/
theorem memReadWord_congr {s t : State} (hp : t.params = s.params) (hh : t.rhooks = s.rhooks)
    (hm : t.mem = s.mem) (ha : t.answers = s.answers) (hd : t.draws = s.draws) (a : Nat) :
    memReadWord t a = memReadWord s a := by
  simp only [memReadWord, firstReadHook, deviceAnswerAt, hp, hh, hm, ha, hd]

@[simp] theorem memReadWord_traceFetch (s : State) (w : Word) (a : Nat) :
    memReadWord (traceFetch w s) a = memReadWord s a :=
  memReadWord_congr rfl rfl rfl rfl rfl a

/-! ### The write primitive -/

theorem matchingWriteHooks_eq_nil {s : State} {a : Nat} :
    matchingWriteHooks s a = [] ↔ NotWriteHooked s a := by
  simp only [matchingWriteHooks, List.filter_eq_nil_iff, NotWriteHooked, covers, decide_eq_true_eq]
  constructor
  · intro h k hk
    obtain ⟨i, hi, e⟩ := List.mem_iff_getElem.mp hk
    exact h (k, i) (by rw [List.mem_zipIdx_iff_getElem?]; simp [← e, hi])
  · rintro h ⟨k, i⟩ hk
    rw [List.mem_zipIdx_iff_getElem?] at hk
    exact h k (List.mem_of_getElem? hk)

/-- Everything `memWrite` can do to storage: nothing, or one cell in range set to the normalized word. -/
theorem memWrite_mem_cases (a : Nat) (v : Word) (s : State) :
    (memWrite a v s).mem = s.mem ∨
      (NotWriteHooked s a ∧ a < memSize s.params ∧
        (memWrite a v s).mem = cellSet s.mem a (normalize v)) := by
  unfold memWrite
  split
  · next h =>
    split
    · next hlt => exact .inr ⟨matchingWriteHooks_eq_nil.mp h, hlt, rfl⟩
    · exact .inl rfl
  · exact .inl rfl

theorem memWrite_of_notHooked {s : State} {a : Nat} (h : NotWriteHooked s a) (v : Word) :
    memWrite a v s =
      if a < memSize s.params then { s with mem := cellSet s.mem a (normalize v) } else s := by
  simp only [memWrite, matchingWriteHooks_eq_nil.mpr h]

/-- Only storage and the device calls can change in a write. -/
theorem memWrite_frame (a : Nat) (v : Word) (s : State) :
    memWrite a v s = { s with mem := (memWrite a v s).mem, events := (memWrite a v s).events } := by
  unfold memWrite
  split
  · split <;> rfl
  · rfl

/-! ### The flush -/

@[simp] theorem flush_of_idle {s : State} (h : s.slot = .idle) : flush s = s := by
  unfold flush; rw [h]

theorem flush_of_read {s : State} {a : Half} {r : Reg} (h : s.slot = .read a r) :
    flush s = setSlot .idle (writeReg r.val (memReadWord s a.toNat) (memReadEffect a.toNat s)) := by
  unfold flush; rw [h]

theorem flush_of_write {s : State} {a : Half} {r : Reg} (h : s.slot = .write a r) :
    flush s = setSlot .idle (memWrite a.toNat (readReg s r.val) s) := by
  unfold flush; rw [h]

/-- Everything a flush can do to storage. -/
theorem flush_mem_cases (s : State) :
    (flush s).mem = s.mem ∨
      ∃ a r, s.slot = .write a r ∧ NotWriteHooked s a.toNat ∧ a.toNat < memSize s.params ∧
        (flush s).mem = cellSet s.mem a.toNat (normalize (readReg s r.val)) := by
  cases h : s.slot with
  | idle => exact .inl (by rw [flush_of_idle h])
  | read a r => exact .inl (by rw [flush_of_read h]; simp)
  | write a r =>
    rw [flush_of_write h]
    rcases memWrite_mem_cases a.toNat (readReg s r.val) s with e | ⟨h1, h2, h3⟩
    · exact .inl e
    · exact .inr ⟨a, r, rfl, h1, h2, h3⟩

/-- Everything a flush can do to the registers. -/
theorem flush_regs_cases (s : State) :
    (flush s).regs = s.regs ∨
      ∃ a r, s.slot = .read a r ∧
        (flush s).regs = regsAfterWrite s.regs r.val (memReadWord s a.toNat) := by
  cases h : s.slot with
  | idle => exact .inl (by rw [flush_of_idle h])
  | read a r => exact .inr ⟨a, r, rfl, by rw [flush_of_read h]; simp⟩
  | write a r => exact .inl (by rw [flush_of_write h]; simp)

/-! ### The canonical form and the normalized registers are kept -/

theorem memWrite_wf {s : State} (h : Memory.wf s.mem) (a : Nat) (v : Word) :
    Memory.wf (memWrite a v s).mem := by
  rcases memWrite_mem_cases a v s with e | ⟨_, _, e⟩
  · rw [e]; exact h
  · rw [e]; exact cellSet_wf h _ _

theorem flush_wf {s : State} (h : Memory.wf s.mem) : Memory.wf (flush s).mem := by
  rcases flush_mem_cases s with e | ⟨a, r, _, _, _, e⟩
  · rw [e]; exact h
  · rw [e]; exact cellSet_wf h _ _

theorem flushAfterTurn_wf {s : State} (h : Memory.wf s.mem) : Memory.wf (flushAfterTurn s).mem := by
  unfold flushAfterTurn
  split
  · exact flush_wf h
  · split
    · exact flush_wf h
    · exact h

/-- Everything a load of an image can do: nothing, or the image in storage and no further load. -/
theorem loadImage_cases (image : List Word) (s : State) :
    (loadImage image s = s ∧ ¬(s.core = 0 ∧ s.imageLoadable = true)) ∨
      (loadImage image s = storeImage image s ∧ s.core = 0 ∧ s.imageLoadable = true) := by
  by_cases h : s.core = 0 ∧ s.imageLoadable = true
  · exact .inr ⟨if_pos (by simpa [betweenCycles] using h), h⟩
  · exact .inl ⟨if_neg (by simpa [betweenCycles] using h), h⟩

theorem storeImage_wf (image : List Word) (s : State) : Memory.wf (storeImage image s).mem :=
  imageCells_wf _ _

theorem loadImage_wf {s : State} (h : Memory.wf s.mem) (image : List Word) :
    Memory.wf (loadImage image s).mem := by
  rcases loadImage_cases image s with ⟨e, _⟩ | ⟨e, _⟩
  · rw [e]; exact h
  · rw [e]; exact storeImage_wf image s

theorem reset_memory_wf : Memory.wf State.reset.mem := by decide

/-- Writing a register keeps every register normalized. -/
theorem regsAfterWrite_normalized {regs : Vector Word 31}
    (h : ∀ i : Fin 31, normalize regs[i] = regs[i]) (k : Nat) (v : Word) :
    ∀ i : Fin 31, normalize (regsAfterWrite regs k v)[i] = (regsAfterWrite regs k v)[i] := by
  intro i
  unfold regsAfterWrite
  split
  · simp only [Fin.getElem_fin]
    by_cases e : k - 1 = i.val
    · simp [e]
    · rw [Vector.getElem_set_ne (h := e)]
      exact h i
  · exact h i

/-! ### The configuration test -/

theorem refusalOf_eq_none {s : State} :
    refusalOf s = none ↔ configInRange s = true ∧ s.core < ncores s.params := by
  unfold refusalOf
  split
  · next h => split <;> simp_all
  · next h => simp [h]

/-- The test looks at the parameters, the hook lists and the core only. -/
theorem refusalOf_congr {s t : State} (hp : t.params = s.params) (hr : t.rhooks = s.rhooks)
    (hw : t.whooks = s.whooks) (hc : t.core = s.core) : refusalOf t = refusalOf s := by
  unfold refusalOf configInRange
  rw [hp, hr, hw, hc]

end Sys2Proof.Machine
end

