-- ==== Sys2Proof/Laws/Exec.lean ====
section
/-! SUPPORT. What a dispatch can do, said once for all instructions, and what a step is made of. -/

namespace Sys2Proof.Machine

/-- The only pieces of state a dispatch can change (40_cycle_engine.md R71 step 5): registers, flags, `pc`,
`halted` and the slot. -/
def DispatchFrame (s t : State) : Prop :=
  t = { s with regs := t.regs, flags := t.flags, pc := t.pc, halted := t.halted, slot := t.slot }

theorem finishAlu_frame (moi : Bool) (rd : Reg) (o : AluOut) (s : State) :
    DispatchFrame s (finishAlu moi rd o s) := rfl

theorem finishMerge_frame (moi : Bool) (rd : Reg) (m : Word) (s : State) :
    DispatchFrame s (finishMerge moi rd m s) := rfl

theorem finishMul_frame (rd : Reg) (h : Half) (s : State) :
    DispatchFrame s (finishMul rd h s) := by
  unfold finishMul DispatchFrame
  split <;> rfl

/-- Inversion of `exec`: no dispatch faults or is refused, and its next state is within the frame. -/
theorem exec_frame (i : Instr) (s : State) : ∃ t, exec i s = .next t ∧ DispatchFrame s t := by
  cases i with
  | jump moi rd sync cond sec =>
    by_cases hc : conditionTable s.flags cond
    · by_cases hs : (sync && onLastCore s) = true
      · exact ⟨s, by simp only [exec, execJump, hc, hs, if_true], rfl⟩
      · refine ⟨redirect (secValue s sec) (writeReg rd.val (s.pc + 1) s), ?_, rfl⟩
        simp only [exec, execJump, hc, hs, if_true]
        rfl
    · refine ⟨advance s, ?_, rfl⟩
      simp only [exec, execJump, hc]
      rfl
  | mul rd rs sec => exact ⟨_, rfl, finishMul_frame _ _ _⟩
  | muls rd rs sec => exact ⟨_, rfl, finishMul_frame _ _ _⟩
  | mulh rd rs sec => exact ⟨_, rfl, finishMul_frame _ _ _⟩
  | mulx rd rs sec => exact ⟨_, rfl, finishMul_frame _ _ _⟩
  | _ => exact ⟨_, rfl, rfl⟩

/-- The outcome of a dispatch, as the next state it answers. -/
theorem mapNext_next (f : State → State) (s : State) : mapNext f (.next s) = .next (f s) := rfl

/-- The step of a halted instance (40_cycle_engine.md R76). -/
theorem step_of_halted {s : State} (hc : refusalOf s = none) (hh : s.halted = true) :
    step s = .next s := by
  simp only [step, runTurn, hc, hh, if_true]

/-- The step of a running instance: flush at the start of a cycle, turn, flush (R70). -/
theorem step_of_running {s : State} (hc : refusalOf s = none) (hh : s.halted = false) :
    step s = mapNext endTurn (takeTurn (beginTurn s)) := by
  simp only [step, runTurn, hc, hh]
  rfl

/-- Inversion of `step`: what a next state comes from. -/
theorem step_cases {s t : State} (h : step s = .next t) :
    refusalOf s = none ∧
      ((s.halted = true ∧ t = s) ∨
        (s.halted = false ∧ ∃ u, takeTurn (beginTurn s) = .next u ∧ t = endTurn u)) := by
  cases hr : refusalOf s with
  | some r => simp [step, runTurn, hr] at h
  | none =>
    refine ⟨rfl, ?_⟩
    cases hh : s.halted with
    | true =>
      rw [step_of_halted hr hh] at h
      exact .inl ⟨rfl, by injection h with h; exact h.symm⟩
    | false =>
      rw [step_of_running hr hh] at h
      obtain ⟨u, hu, _⟩ := exec_frame (decode (fetchWord (wrapPc (beginTurn s))))
        (afterFetch (wrapPc (beginTurn s)))
      refine .inr ⟨rfl, u, hu, ?_⟩
      rw [takeTurn, hu, mapNext_next] at h
      injection h with h
      exact h.symm

@[simp] theorem afterFetch_params (s : State) : (afterFetch s).params = s.params := by simp [afterFetch]
@[simp] theorem afterFetch_regs (s : State) : (afterFetch s).regs = s.regs := by simp [afterFetch]
@[simp] theorem afterFetch_pc (s : State) : (afterFetch s).pc = s.pc := by simp [afterFetch]
@[simp] theorem afterFetch_flags (s : State) : (afterFetch s).flags = s.flags := by simp [afterFetch]
@[simp] theorem afterFetch_halted (s : State) : (afterFetch s).halted = s.halted := by simp [afterFetch]
@[simp] theorem afterFetch_slot (s : State) : (afterFetch s).slot = s.slot := by simp [afterFetch]
@[simp] theorem afterFetch_core (s : State) : (afterFetch s).core = s.core := by simp [afterFetch]
@[simp] theorem afterFetch_imageLoadable (s : State) : (afterFetch s).imageLoadable = s.imageLoadable := by simp [afterFetch]
@[simp] theorem afterFetch_mem (s : State) : (afterFetch s).mem = s.mem := by simp [afterFetch]
@[simp] theorem afterFetch_rhooks (s : State) : (afterFetch s).rhooks = s.rhooks := by simp [afterFetch]
@[simp] theorem afterFetch_whooks (s : State) : (afterFetch s).whooks = s.whooks := by simp [afterFetch]

end Sys2Proof.Machine
end

