-- ==== Sys2Proof/Laws/PerInstr.lean ====
section
/-! SUPPORT. Per instruction: the opcode field and the ignored-or-not top bits of its encoding
(30_encoding.md R50, R57, R64), one lemma per constructor. -/

namespace Sys2Proof.Laws

/-- The fields of an encoded word are the fields it was made from. -/
theorem encodeFields_toNat (moi soii : Bool) (rd rs op : Nat) (field : Half)
    (hrd : rd < 32) (hrs : rs < 32) (hop : op < 16) :
    (encodeFields moi soii rd rs op field).toNat =
      moi.toNat * 2 ^ 31 + soii.toNat * 2 ^ 30 + rd * 2 ^ 25 + rs * 2 ^ 20 + op * 2 ^ 16 + field.toNat := by
  have := field.isLt
  have := Bool.toNat_le moi
  have := Bool.toNat_le soii
  simp only [encodeFields, BitVec.toNat_ofNat]
  omega

theorem opOf_encodeFields (moi soii : Bool) (rd rs op : Nat) (field : Half)
    (hrd : rd < 32) (hrs : rs < 32) (hop : op < 16) :
    opOf (encodeFields moi soii rd rs op field) = op := by
  have := field.isLt
  have := Bool.toNat_le moi
  have := Bool.toNat_le soii
  simp only [opOf, bits, encodeFields_toNat _ _ _ _ _ _ hrd hrs hop]
  omega

theorem opOf_encodeWith (op : Nat) (moi : Bool) (rd rs : Reg) (sec : Operand) (hop : op < 16) :
    opOf (encodeWith op moi rd rs sec) = op :=
  opOf_encodeFields _ _ _ _ _ _ rd.isLt rs.isLt hop

/-- The opcode an instruction is numbered with (R57). -/
def opcodeOf : Instr → Nat
  | .move _ _ _ _ => 0
  | .jump _ _ _ _ _ => 1
  | .load _ _ _ _ => 2
  | .exchange _ _ _ _ => 3
  | .sub _ _ _ _ => 4
  | .sbb _ _ _ _ => 5
  | .add _ _ _ _ => 6
  | .adc _ _ _ _ => 7
  | .xor _ _ _ _ => 8
  | .or _ _ _ _ => 9
  | .store _ _ _ _ => 10
  | .shl _ _ _ _ => 11
  | .shr _ _ _ _ => 11
  | .and _ _ _ _ => 12
  | .halt _ _ _ _ => 13
  | .mul _ _ _ => 14
  | .muls _ _ _ => 14
  | .mulh _ _ _ => 15
  | .mulx _ _ _ => 15

/-- The encoding of the instruction carries its opcode in bits 19 to 16. -/
def OpcodeField.Statement (i : Instr) : Prop := opOf (encode i) = opcodeOf i

theorem OpcodeField.move (moi : Bool) (rd rs : Reg) (sec : Operand) :
    OpcodeField.Statement (.move moi rd rs sec) := opOf_encodeWith _ _ _ _ _ (by decide)
theorem OpcodeField.jump (moi : Bool) (rd : Reg) (sync : Bool) (cond : Cond) (sec : Operand) :
    OpcodeField.Statement (.jump moi rd sync cond sec) := by
  have := Bool.toNat_le sync
  exact opOf_encodeFields _ _ _ _ _ _ rd.isLt (by omega) (by decide)
theorem OpcodeField.load (moi : Bool) (rd rs : Reg) (sec : Operand) :
    OpcodeField.Statement (.load moi rd rs sec) := opOf_encodeWith _ _ _ _ _ (by decide)
theorem OpcodeField.exchange (moi : Bool) (rd rs : Reg) (sec : Operand) :
    OpcodeField.Statement (.exchange moi rd rs sec) := opOf_encodeWith _ _ _ _ _ (by decide)
theorem OpcodeField.sub (moi : Bool) (rd rs : Reg) (sec : Operand) :
    OpcodeField.Statement (.sub moi rd rs sec) := opOf_encodeWith _ _ _ _ _ (by decide)
theorem OpcodeField.sbb (moi : Bool) (rd rs : Reg) (sec : Operand) :
    OpcodeField.Statement (.sbb moi rd rs sec) := opOf_encodeWith _ _ _ _ _ (by decide)
theorem OpcodeField.add (moi : Bool) (rd rs : Reg) (sec : Operand) :
    OpcodeField.Statement (.add moi rd rs sec) := opOf_encodeWith _ _ _ _ _ (by decide)
theorem OpcodeField.adc (moi : Bool) (rd rs : Reg) (sec : Operand) :
    OpcodeField.Statement (.adc moi rd rs sec) := opOf_encodeWith _ _ _ _ _ (by decide)
theorem OpcodeField.xor (moi : Bool) (rd rs : Reg) (sec : Operand) :
    OpcodeField.Statement (.xor moi rd rs sec) := opOf_encodeWith _ _ _ _ _ (by decide)
theorem OpcodeField.or (moi : Bool) (rd rs : Reg) (sec : Operand) :
    OpcodeField.Statement (.or moi rd rs sec) := opOf_encodeWith _ _ _ _ _ (by decide)
theorem OpcodeField.store (moi : Bool) (rd rs : Reg) (sec : Operand) :
    OpcodeField.Statement (.store moi rd rs sec) := opOf_encodeWith _ _ _ _ _ (by decide)
theorem OpcodeField.shl (moi : Bool) (rd rs : Reg) (sec : Operand) :
    OpcodeField.Statement (.shl moi rd rs sec) := opOf_encodeWith _ _ _ _ _ (by decide)
theorem OpcodeField.shr (moi : Bool) (rd rs : Reg) (sec : Operand) :
    OpcodeField.Statement (.shr moi rd rs sec) := opOf_encodeWith _ _ _ _ _ (by decide)
theorem OpcodeField.and (moi : Bool) (rd rs : Reg) (sec : Operand) :
    OpcodeField.Statement (.and moi rd rs sec) := opOf_encodeWith _ _ _ _ _ (by decide)
theorem OpcodeField.halt (moi : Bool) (rd rs : Reg) (sec : Operand) :
    OpcodeField.Statement (.halt moi rd rs sec) := opOf_encodeWith _ _ _ _ _ (by decide)
theorem OpcodeField.mul (rd rs : Reg) (sec : Operand) :
    OpcodeField.Statement (.mul rd rs sec) := opOf_encodeWith _ _ _ _ _ (by decide)
theorem OpcodeField.muls (rd rs : Reg) (sec : Operand) :
    OpcodeField.Statement (.muls rd rs sec) := opOf_encodeWith _ _ _ _ _ (by decide)
theorem OpcodeField.mulh (rd rs : Reg) (sec : Operand) :
    OpcodeField.Statement (.mulh rd rs sec) := opOf_encodeWith _ _ _ _ _ (by decide)
theorem OpcodeField.mulx (rd rs : Reg) (sec : Operand) :
    OpcodeField.Statement (.mulx rd rs sec) := opOf_encodeWith _ _ _ _ _ (by decide)

end Sys2Proof.Laws
end

