-- ==== Sys2Proof/Tests/Slice0.lean ====
section
/-! SUPPORT. The model's own tests. Expected values come from 95_test_vectors.md (named per test) or from the
rule named, never from the model; then one witness theorem per obligation that has hypotheses. -/

namespace Sys2Proof.Tests

open Sys2Proof.Machine

/-! ### WellFormed -/

theorem test_wellformed_shl_top : (Instr.shl true 2 1 (.imm 0x7FFF)).wellFormed = true := by decide
theorem test_illformed_shl : (Instr.shl true 2 1 (.imm 0x8000)).wellFormed = false := by decide
theorem test_illformed_shl_reg : (Instr.shl false 2 1 (.reg 0xFFFF)).wellFormed = false := by decide
theorem test_wellformed_shr_bottom : (Instr.shr true 2 1 (.imm 0x8000)).wellFormed = true := by decide
theorem test_illformed_shr : (Instr.shr true 2 1 (.imm 0x7FFF)).wellFormed = false := by decide
theorem test_illformed_shr_reg : (Instr.shr false 2 1 (.reg 3)).wellFormed = false := by decide

/-! ### Decode: words of 95_test_vectors.md, one or more per constructor -/

theorem test_decode_move : decode 0x46305678 = .move false 3 3 (.imm 0x5678) := by decide
theorem test_decode_move_reg : decode 0x06200028 = .move false 3 2 (.reg 40) := by decide
theorem test_decode_jump : decode 0x40D10002 = .jump false 0 false 13 (.imm 2) := by decide
theorem test_decode_jump_sync : decode 0x4B510010 = .jump false 5 true 5 (.imm 0x10) := by decide
theorem test_decode_load : decode 0x04120003 = .load false 2 1 (.reg 3) := by decide
theorem test_decode_exchange : decode 0xC623FFFF = .exchange true 3 2 (.imm 0xFFFF) := by decide
theorem test_decode_sub : decode 0x80140002 = .sub true 0 1 (.reg 2) := by decide
theorem test_decode_sbb : decode 0xC4158000 = .sbb true 2 1 (.imm 0x8000) := by decide
theorem test_decode_add : decode 0xC216FFFF = .add true 1 1 (.imm 0xFFFF) := by decide
theorem test_decode_adc : decode 0x8C270004 = .adc true 6 2 (.reg 4) := by decide
theorem test_decode_xor : decode 0xC418FFFF = .xor true 2 1 (.imm 0xFFFF) := by decide
theorem test_decode_or : decode 0x441900F0 = .or false 2 1 (.imm 0xF0) := by decide
theorem test_decode_store : decode 0x022A0003 = .store false 1 2 (.reg 3) := by decide
theorem test_decode_shl : decode 0x841B0003 = .shl true 2 1 (.reg 3) := by decide
theorem test_decode_shr : decode 0x841B8003 = .shr true 2 1 (.reg 32771) := by decide
theorem test_decode_and : decode 0xC41C00F0 = .and true 2 1 (.imm 0xF0) := by decide
theorem test_decode_halt : decode 0xFFFDFFFF = .halt true 31 31 (.imm 0xFFFF) := by decide
theorem test_decode_mul : decode 0x081E0002 = .mul 4 1 (.reg 2) := by decide
theorem test_decode_muls : decode 0xC41E5678 = .muls 2 1 (.imm 0x5678) := by decide
theorem test_decode_mulh : decode 0x441F0100 = .mulh 2 1 (.imm 0x100) := by decide
theorem test_decode_mulx : decode 0xC41F7FFF = .mulx 2 1 (.imm 0x7FFF) := by decide

theorem test_encode_add : encode (.add true 1 1 (.imm 0xFFFF)) = 0xC216FFFF := by decide
theorem test_encode_jump : encode (.jump false 5 true 5 (.imm 0x10)) = 0x4B510010 := by decide

/-- The decoder rejects one thing only, the missing word, by name (30_encoding.md R62). -/
theorem test_decode_no_word : decodeStream [] = .error .noWord := rfl

theorem test_decode_table_word :
    decodeTableWord 32 0xC216FFFF = some (.add true 1 1 (.imm 0xFFFF)) ∧ decodeTableWord 0 0 = none := by
  decide

/-- 30_encoding.md R64: "The 19 (match, mask) pairs are pairwise disjoint", and no two rows share a name. -/
theorem test_opcode_rows_disjoint :
    opcodeRows.length = 19 ∧
      opcodeRows.Pairwise (fun r q => r.pattern &&& q.mask ≠ q.pattern &&& r.mask ∧ r.mnemonic ≠ q.mnemonic) := by
  decide

/-! ### A small machine: one core of capability Multiply, MEM_SIZE = 256 (the vectors' convention) -/

def smallParams : Params := { resetParams with rows := 1 }

def quiet : Flags := ⟨false, false, false, false⟩

/-- The instruction word at address 0, registers and flags as given. -/
def vec (w : Word) (regs : List (Nat × Word)) (flags : Flags) : State :=
  regs.foldl (fun s p => writeReg p.1 p.2 s)
    { State.reset with params := smallParams, flags := flags, mem := cellSet [] 0 w }

/-- The outcome is a next state with the property. -/
def holdsNext (o : Host.Outcome State Fault Refusal) (p : State → Bool) : Bool :=
  match o with
  | .next s => p s
  | .fault _ => false
  | .refused _ => false

/-- One cycle ends with `x[r] = v`, the flags given and `pc = 1`. -/
def ends (s : State) (r : Nat) (v : Word) (f : Flags) : Bool :=
  holdsNext (step s) (fun t => decide (readReg t r = v ∧ t.flags = f ∧ t.pc = 1 ∧ t.slot = .idle))

/-! ### One step per instruction (95_test_vectors.md part 2) -/

theorem test_move_flags : ends (vec 0x86200001 [(2, 0xAAAA5555), (1, 0x11110000)] ⟨false, true, true, true⟩)
    3 0xAAAA0000 ⟨true, false, false, true⟩ = true := by decide
theorem test_move_index_above_31 : ends (vec 0x06200028 [(2, 0xAAAA5555), (8, 0x1234)] quiet)
    3 0xAAAA0000 quiet = true := by decide
theorem test_exchange : ends (vec 0x06230002 [(2, 0x12345678)] quiet) 3 0x56781234 quiet = true := by decide
theorem test_exchange_flags : ends (vec 0x86230001 [(2, 1), (1, 0x80000005)] ⟨true, false, true, false⟩)
    3 0x00018000 ⟨false, true, false, false⟩ = true := by decide
theorem test_sub_operand_order : ends (vec 0xC4140003 [(1, 5)] quiet)
    2 0xFFFE ⟨false, true, true, false⟩ = true := by decide
theorem test_sub_overflow : ends (vec 0xC4148000 [(1, 1)] quiet)
    2 0x7FFF ⟨false, false, false, true⟩ = true := by decide
theorem test_sbb_borrow : ends (vec 0xC4150000 [(1, 0xFFFF), (2, 0x55)] ⟨false, false, true, false⟩)
    2 0 ⟨true, false, true, false⟩ = true := by decide
theorem test_sbb_reads_carry : ends (vec 0x44150005 [(1, 3)] ⟨false, false, true, true⟩)
    2 1 ⟨false, false, true, true⟩ = true := by decide
theorem test_add_scenario_A : ends (vec 0xC416FFFC [(1, 2)] quiet)
    2 0xFFFE ⟨false, true, false, false⟩ = true := by decide
theorem test_add_low_halves : ends (vec 0x84160003 [(1, 0x12345), (3, 0xF0001)] quiet)
    2 0x2346 quiet = true := by decide
theorem test_adc_carry_in : ends (vec 0xC4177FFF [(1, 0x7FFF)] ⟨false, false, true, false⟩)
    2 0xFFFF ⟨false, true, false, true⟩ = true := by decide
theorem test_xor_flags : ends (vec 0xC418FFFF [(1, 0xFFFF), (2, 0x55)] ⟨false, true, true, true⟩)
    2 0 ⟨true, false, false, true⟩ = true := by decide
theorem test_or_flags : ends (vec 0xC4198000 [(1, 1)] ⟨true, false, true, true⟩)
    2 0x8001 ⟨false, true, false, true⟩ = true := by decide
theorem test_and_flags : ends (vec 0x841C0003 [(1, 0xFFFF8001), (3, 0xABCD8000)] ⟨false, false, true, false⟩)
    2 0x8000 ⟨false, true, false, false⟩ = true := by decide
theorem test_shl_keeps_carry : ends (vec 0xC41B0002 [(1, 5)] ⟨true, true, true, true⟩)
    2 0x14 ⟨false, false, true, true⟩ = true := by decide
theorem test_shl_direction_from_field : ends (vec 0x841B0003 [(1, 1), (3, 0x8004)] quiet)
    2 0x10 quiet = true := by decide
theorem test_shr_logical : ends (vec 0xC41B800F [(1, 0x8000)] quiet) 2 1 quiet = true := by decide
theorem test_shr_register_amount : ends (vec 0x841B8003 [(1, 0xFFFF), (3, 4)] quiet)
    2 0xFFFF ⟨false, true, false, false⟩ = true := by decide
theorem test_mul_keeps_flags : ends (vec 0x081E0002 [(1, 7), (2, 6)] ⟨true, true, true, true⟩)
    4 0x2A ⟨true, true, true, true⟩ = true := by decide
theorem test_muls_negative : ends (vec 0xC41E0002 [(1, 0x8000)] quiet) 2 0xFFFF quiet = true := by decide
theorem test_mulh : ends (vec 0x441FFFFF [(1, 0xFFFF)] quiet) 2 0xFFFE quiet = true := by decide
theorem test_mulx_floor : ends (vec 0xC41FFFFF [(1, 0xFFFF)] quiet) 2 0xFFFF quiet = true := by decide
theorem test_mulx_positive : ends (vec 0xC41F0001 [(1, 0xFFFF), (2, 0x55)] quiet) 2 0 quiet = true := by decide

/-- A core of capability Basic: the multiply only advances `pc`. -/
theorem test_mul_basic_core :
    ends { vec 0x081E0002 [(1, 7), (2, 6), (4, 0x99)] quiet with
      params := { smallParams with caps := [.basic], mulAllow := true } } 4 0x99 quiet = true := by decide

/-- The vectors' named alternatives of 00_scope.md R6. -/
theorem test_alternative_shift_direction :
    ends { vec 0x841B0003 [(1, 1), (3, 0x8004)] quiet with
      params := { smallParams with readings := { shiftDir := .resolved } } } 2 0 ⟨true, false, false, false⟩
      = true := by decide
theorem test_alternative_mulx :
    ends { vec 0xC41F0001 [(1, 0xFFFF), (2, 0x55)] quiet with
      params := { smallParams with readings := { mulxSigned := .primary } } } 2 0xFFFF quiet = true := by decide
theorem test_alternative_merge_view :
    ends { vec 0x86200001 [(2, 0xAAAA5555), (1, 0x11110000)] quiet with
      params := { smallParams with readings := { mergeView := .word32 } } } 3 0xAAAA0000
      ⟨false, true, false, false⟩ = true := by decide

/-- Jumps of the vectors, `pc` before and after. -/
def jumps (w : Word) (regs : List (Nat × Word)) (f : Flags) (before after : Word) (r : Nat) (v : Word) : Bool :=
  holdsNext (step { vec 0 regs f with pc := before, mem := cellSet [] before.toNat w })
    (fun t => decide (t.pc = after ∧ readReg t r = v ∧ t.flags = f))

theorem test_jump_target_read_before_link :
    jumps 0x0A010005 [(5, 0x30)] quiet 7 48 5 8 = true := by decide
theorem test_jump_never : jumps 0x4A810020 [] quiet 7 8 5 0 = true := by decide
theorem test_jump_single_core_hang : jumps 0x4B010010 [] quiet 3 3 5 0 = true := by decide

theorem test_halt :
    holdsNext (step (vec 0xFFFDFFFF [] quiet))
      (fun t => decide (t.halted = true ∧ t.pc = 1 ∧ t.regs = Vector.replicate 31 0)) = true := by decide

theorem test_load_address_wraps :
    holdsNext (step { vec 0x44120041 [(1, 0x1234FFFF)] quiet with
        mem := [(0, 0x44120041), (0x40, 0x55)] })
      (fun t => decide (readReg t 2 = 0x55 ∧ t.pc = 1)) = true := by decide
theorem test_load_first_hook_wins :
    holdsNext (step { vec 0x44020062 [] quiet with
        rhooks := [⟨0x61, 1, 0⟩, ⟨0x62, 0, 1⟩], answers := [0xABCD0062] })
      (fun t => decide (readReg t 2 = 0xABCD0062 ∧ t.events = [.readCall 0 0x62 0xABCD0062])) = true := by decide
theorem test_store_data_register :
    holdsNext (step (vec 0x022A0003 [(1, 0xAAAA5555), (2, 0xFFF0), (3, 0x50)] quiet))
      (fun t => decide (t.mem = [(0, 0x022A0003), (0x40, 0xAAAA5555)] ∧ t.pc = 1)) = true := by decide
theorem test_store_both_write_hooks :
    holdsNext (step { vec 0x420A0050 [(1, 0x12345678)] quiet with
        mem := [(0, 0x420A0050), (0x50, 9)], whooks := [⟨0x50, 3, 0⟩, ⟨0x4F, 1, 1⟩] })
      (fun t => decide (t.events = [.writeCall 0 0x12345678 0, .writeCall 1 0x12345678 1] ∧
        t.mem = [(0, 0x420A0050), (0x50, 9)])) = true := by decide

/-- Rows of the fetch table: `pc = MEM_SIZE` wraps at the next turn, which fetches address 0. -/
theorem test_pc_wraps :
    holdsNext (step { vec 0x42000007 [] quiet with pc := 256 })
      (fun t => decide (t.pc = 1 ∧ readReg t 1 = 7)) = true := by decide

/-- Source scenario D: core 0 halts, core 1 does not execute. -/
theorem test_scenario_D :
    holdsNext (runCycle (boot { smallParams with caps := [.basic, .basic] } [0x000D0000, 0x42000001] [] []))
      (fun t => decide (t.halted = true ∧ t.pc = 1 ∧ readReg t 1 = 0)) = true := by decide

/-- Program PE's first cycle under this spec's flush points, and under the alternative. -/
def scenarioE (p : FlushPoints) : State :=
  boot { smallParams with caps := [.basic, .basic], readings := { flushPoints := p } }
    [0x42020010, 0x04000001, 0x000D0000, 0, 0, 0, 0, 0, 0, 0, 0, 0, 0, 0, 0, 0, 0xAB] [] []

theorem test_scenario_E :
    holdsNext (runCycle (scenarioE .everyTurn)) (fun t => decide (readReg t 1 = 0xAB ∧ readReg t 2 = 0xAB)) = true
      := by decide
theorem test_scenario_E_alternative :
    holdsNext (runCycle (scenarioE .endOfCycle)) (fun t => decide (readReg t 1 = 0xAB ∧ readReg t 2 = 0)) = true
      := by decide

/-! ### The host's moves (70_reset_and_hazards.md R192, R196) -/

/-- The image is stored before the first turn; after a turn it is not, and a second image is not. -/
theorem test_image_once :
    (loadImage [7] (construct smallParams [] [])).mem = [(0, 7)] ∧
      (loadImage [9] (boot smallParams [7] [] [])).mem = [(0, 7)] ∧
      holdsNext (runCycle (construct smallParams [] []))
        (fun t => decide ((loadImage [9] t).mem = [])) = true := by decide

/-- Between two turns of a cycle the host has no move. -/
theorem test_no_move_within_a_cycle :
    runCycle { scenarioE .everyTurn with core := 1 } = .refused .withinCycle ∧
      inspectPc { scenarioE .everyTurn with core := 1 } = none ∧
      inspectMemory { scenarioE .everyTurn with core := 1 } 0 = none ∧
      inspectPc (scenarioE .everyTurn) = some 0 := ⟨rfl, by decide, rfl, by decide⟩

/-! ### The fixed interface -/

/-- A table row's word runs as the first instruction after reset. -/
theorem test_fetch_word_at_reset :
    holdsNext (step (State.reset.withFetchWord 32 0x420A0040)) (fun t => decide (t.pc = 1)) = true := by decide
/-- A word storage cannot deliver (30_encoding.md R63) is delivered through a hook: `move.f` sets Zero. -/
theorem test_fetch_word_undeliverable :
    holdsNext (step (State.reset.withFetchWord 32 0x80000000))
      (fun t => decide (t.flags = ⟨true, false, false, false⟩)) = true := by decide
/-- R63: the same word in storage executes as 0. -/
theorem test_undeliverable_in_storage : ends (vec 0x80000000 [] quiet) 1 0 quiet = true := by decide

/-! ### Witnesses: for each obligation with hypotheses, concrete inputs that meet them all -/

/-- A hook list with two overlapping hooks, and one queued answer. -/
def hooked : State :=
  { vec 0x44020062 [(1, 7)] quiet with
    rhooks := [⟨0x61, 1, 0⟩, ⟨0x62, 1, 1⟩], whooks := [⟨0x50, 3, 0⟩], answers := [5] }

theorem witness_DecodeInvertsEncode :
    (Instr.shl true 31 31 (.reg 0x7FFF)).wellFormed = true ∧ (Instr.shr true 31 31 (.imm 0x8000)).wellFormed = true ∧
      (Instr.jump true 31 true 15 (.imm 0xFFFF)).wellFormed = true := by decide

theorem witness_EveryWordMatchesExactlyItsRow : (⟨"shr", 0x000B8000, 0x000F8000⟩ : OpcodeRow) ∈ opcodeRows := by
  decide

theorem witness_EncodedFieldsAreTheLayout : (31 : Nat) < 32 ∧ (31 : Nat) < 32 ∧ (15 : Nat) < 16 := by decide

theorem witness_NormalizeAppliesAtEveryBoundary :
    bits 0xC0000001 29 0 ≠ 0 ∧ (1 ≤ 31 ∧ 31 ≤ 31) ∧
      Memory.wf hooked.mem ∧ NotWriteHooked hooked 0x54 ∧ NotReadHooked hooked 0x60 ∧
      0x54 < memSize hooked.params ∧ NotWriteHooked hooked 255 ∧ NotReadHooked hooked 255 ∧
      255 < memSize hooked.params := by
  unfold NotWriteHooked NotReadHooked; decide

theorem witness_RegisterReadRule : ((0 = 0 ∨ 31 < 0) ∧ (32 = 0 ∨ 31 < 32)) ∧ (1 ≤ 1 ∧ 1 ≤ 31) ∧ (1 ≤ 31 ∧ 31 ≤ 31) := by
  decide

theorem witness_RegisterWriteRule :
    (32 = 0 ∨ 31 < 32) ∧ (1 ≤ 31 ∧ 31 ≤ 31) ∧ (30 : Nat) ≠ 31 ∧
      ∀ j, normalize (readReg { hooked with regs := Vector.replicate 31 5 } j) =
        readReg { hooked with regs := Vector.replicate 31 5 } j := by
  refine ⟨by decide, by decide, by decide, fun j => ?_⟩
  unfold readReg
  split
  · simp only [Vector.getElem_replicate]; decide
  · decide

theorem witness_SecondaryOperandRule :
    ((0 : Half).toNat = 0 ∨ 31 < (0 : Half).toNat) ∧ ((32 : Half).toNat = 0 ∨ 31 < (32 : Half).toNat) ∧
      (1 ≤ (1 : Half).toNat ∧ (1 : Half).toNat ≤ 31) ∧ (1 ≤ (31 : Half).toNat ∧ (31 : Half).toNat ≤ 31) ∧
      RegsNormalized hooked := by decide

theorem witness_MultiplyFunctionsAreProductHalves : (0x7FFF : Half).toNat < 32768 := by decide

theorem witness_ShiftRightRule : ShrKind.logical = .logical ∧ 1 ≤ (0xFFFFFFF1 : Word).toNat % 16 := by decide

theorem witness_ShiftsWriteShiftedValue :
    (true = decide (ShiftDirSource.resolved = .resolved ∧ 32768 ≤ secHalf hooked (.imm 0x8000)) ∧
      false = decide (ShiftDirSource.field = .resolved ∧ 32768 ≤ secHalf hooked (.imm 0x8000))) ∧
      (true = decide (ShiftDirSource.field = .field ∨ 32768 ≤ secHalf hooked (.imm 0x7FFF)) ∧
        false = decide (ShiftDirSource.resolved = .field ∨ 32768 ≤ secHalf hooked (.imm 0x7FFF))) := by decide

theorem witness_MultipliesWriteProductHalves :
    canMultiply hooked.params hooked.core = true ∧ canMultiply { smallParams with caps := [.standard], mulAllow := true } 0
      = true := by decide

theorem witness_MultiplyGateRule :
    ([Capability.basic, .standard, .multiply][0]? = some .basic ∧
      [Capability.basic, .standard, .multiply][1]? = some .standard ∧
      [Capability.basic, .standard, .multiply][2]? = some .multiply) ∧
      canMultiply { smallParams with caps := [.standard] } 0 = false ∧
      isMultiply (.halt true 1 2 (.imm 3)) = false ∧
      [Capability.basic].length = hooked.params.caps.length := by decide

theorem witness_JumpRule :
    conditionTable ⟨false, true, false, true⟩ 2 = false ∧
      (conditionTable ⟨false, true, false, false⟩ 2 = true ∧ true = true ∧ hooked.core + 1 = ncores hooked.params) ∧
      (¬(false = true ∧ hooked.core + 1 = ncores hooked.params) ∧ (0xFFFF : Word).toNat < 65536) ∧
      ¬(true = true ∧ (scenarioE .everyTurn).core + 1 = ncores (scenarioE .everyTurn).params) := by decide

theorem witness_FlagsFollowTheTable :
    FlagsReadAgree (.adc true 1 2 (.imm 3)) ⟨true, true, true, true⟩ ⟨false, false, true, false⟩ ∧
      FlagsReadAgree (.move true 1 2 (.imm 3)) ⟨true, true, true, true⟩ ⟨false, false, false, false⟩ ∧
      FlagsReadAgree (.jump true 1 false 2 (.imm 3)) quiet quiet := ⟨rfl, trivial, rfl⟩

/-- Both ends of the first hook's range, and the second hook where the first does not reach. -/
theorem witness_MemReadRule :
    FirstCovering hooked 0x61 0 ⟨0x61, 1, 0⟩ ∧ FirstCovering hooked 0x62 0 ⟨0x61, 1, 0⟩ ∧
      FirstCovering hooked 0x63 1 ⟨0x62, 1, 1⟩ ∧
      (NotReadHooked hooked 255 ∧ 255 < memSize hooked.params) ∧
      (NotReadHooked hooked 256 ∧ memSize hooked.params ≤ 256) := by
  refine ⟨⟨rfl, by decide, fun j hj => absurd hj (Nat.not_lt_zero j)⟩,
    ⟨rfl, by decide, fun j hj => absurd hj (Nat.not_lt_zero j)⟩, ⟨rfl, by decide, fun j hj g hg => ?_⟩, ?_⟩
  · have e : j = 0 := by omega
    subst e
    have e : (⟨0x61, 1, 0⟩ : Hook) = g := Option.some.inj hg
    subst e
    decide
  · unfold NotReadHooked; decide

/-- Both ends of the write hook's range; the last cell of storage and the first address above it. -/
theorem witness_MemWriteRule :
    ¬NotWriteHooked hooked 0x50 ∧ ¬NotWriteHooked hooked 0x53 ∧
      (NotWriteHooked hooked 255 ∧ 255 < memSize hooked.params ∧ Memory.wf hooked.mem) ∧
      (NotWriteHooked hooked 256 ∧ memSize hooked.params ≤ 256) := by
  unfold NotWriteHooked; decide

theorem witness_FlushRule :
    hooked.slot = .idle ∧ { hooked with slot := .read 0x61 0 }.slot = .read 0x61 0 ∧
      { hooked with slot := .write 0xFFFF 31 }.slot = .write 0xFFFF 31 := ⟨rfl, rfl, rfl⟩

/-- Both sides of the capacity, a state within a cycle, and a state before and after the image. -/
theorem witness_HostMovesRule :
    hooked.core = 0 ∧ { hooked with rhooks := List.replicate 31 ⟨0, 0, 0⟩ }.rhooks.length < 32 ∧
      32 ≤ { hooked with rhooks := List.replicate 32 ⟨0, 0, 0⟩ }.rhooks.length ∧
      { hooked with whooks := List.replicate 31 ⟨0, 0, 0⟩ }.whooks.length < 32 ∧
      32 ≤ { hooked with whooks := List.replicate 32 ⟨0, 0, 0⟩ }.whooks.length ∧
      ({ scenarioE .everyTurn with core := 1 }.core ≠ 0 ∧
        refusalOf { scenarioE .everyTurn with core := 1 } = none ∧
        { scenarioE .everyTurn with core := 1 }.halted = false) ∧
      hooked.imageLoadable = true ∧ (scenarioE .everyTurn).imageLoadable = false ∧
      (∃ t, step hooked = .next t) ∧ ∃ t, runCycle hooked = .next t := by
  refine ⟨by decide, by decide, by decide, by decide, by decide, by decide, rfl, rfl, ⟨_, rfl⟩, ⟨_, rfl⟩⟩

/-- The four clauses: a word in storage, an instruction's encoding, a hooked fetch, `pc = MEM_SIZE`; and an armed
slot at the start of a cycle. -/
theorem witness_StepRunsTheDecodedInstruction :
    (refusalOf hooked = none ∧ hooked.halted = false ∧ hooked.slot = .idle) ∧
      (hooked.pc.toNat < memSize hooked.params ∧ NotReadHooked hooked hooked.pc.toNat ∧
        (Instr.load false 2 0 (.imm 0x62)).wellFormed = true ∧
        normalize (encode (.load false 2 0 (.imm 0x62))) = encode (.load false 2 0 (.imm 0x62)) ∧
        cellAt hooked.mem hooked.pc.toNat = encode (.load false 2 0 (.imm 0x62))) ∧
      FirstCovering { hooked with pc := 0x61 } 0x61 0 ⟨0x61, 1, 0⟩ ∧
      memSize { hooked with pc := 256 }.params ≤ (256 : Word).toNat ∧
      (refusalOf { hooked with slot := .write 3 1 } = none ∧ { hooked with slot := .write 3 1 }.core = 0) := by
  refine ⟨by decide, ?_, ⟨rfl, by decide, fun j hj => absurd hj (Nat.not_lt_zero j)⟩, by decide, by decide⟩
  unfold NotReadHooked; decide

theorem witness_TurnEndRule :
    (hooked.params.readings.flushPoints = .everyTurn ∧ ncores hooked.params ≤ hooked.core + 1) ∧
      ((scenarioE .everyTurn).halted = false ∧ (scenarioE .everyTurn).core + 1 < ncores (scenarioE .everyTurn).params) ∧
      ((scenarioE .endOfCycle).params.readings.flushPoints = .endOfCycle ∧ (scenarioE .endOfCycle).halted = false ∧
        (scenarioE .endOfCycle).core + 1 < ncores (scenarioE .endOfCycle).params) ∧
      ncores { scenarioE .endOfCycle with core := 1 }.params ≤ { scenarioE .endOfCycle with core := 1 }.core + 1 := by
  decide

/-- Parameters at both ends of R5's ranges, and just outside. -/
theorem witness_NoExceptionEver :
    (hooked.core < ncores hooked.params) ∧
      (memSize { smallParams with rowSize := 1 } = 1 ∧ memSize resetParams = 65536) ∧
      (¬1 ≤ memSize { smallParams with rowSize := 0 }) ∧ (¬memSize { smallParams with rowSize := 65537 } ≤ 65536) ∧
      ncores { smallParams with caps := List.replicate 50 .basic } ≤ 50 ∧
      ¬ncores { smallParams with caps := List.replicate 51 .basic } ≤ 50 := by decide

theorem hooked_inv : hooked.Inv :=
  ⟨by decide, by decide, by decide, by decide, fun _ => rfl, by decide, fun h => absurd h (by decide),
    fun _ => ⟨rfl, rfl⟩⟩

theorem witness_EveryStepKeepsTheInvariant : hooked.Inv ∧ ∃ t, step hooked = .next t := ⟨hooked_inv, _, rfl⟩

theorem witness_HaltedIsTerminalAndOnlyByHalt :
    (refusalOf { hooked with halted := true } = none ∧ { hooked with halted := true }.halted = true) ∧
      ∃ t, (vec 0x000D0000 [] quiet).slot = .idle ∧ (vec 0x000D0000 [] quiet).halted = false ∧
        step (vec 0x000D0000 [] quiet) = .next t ∧ t.halted = true :=
  ⟨by decide, _, rfl, rfl, rfl, rfl⟩

theorem witness_ParametersAndHooksAreConstant : ∃ t, step hooked = .next t := ⟨_, rfl⟩

/-- A running state with an idle slot under the spec's flush points, whose step answers a next state. -/
theorem witness_StepChangesOnlyItsDestination :
    hooked.slot = .idle ∧ hooked.params.readings.flushPoints = .everyTurn ∧ hooked.halted = false ∧
      ∃ t, step hooked = .next t := ⟨rfl, rfl, rfl, _, rfl⟩

def storing : State := vec 0x420A0001 [(1, 0x000D0000)] quiet

theorem storing_ready : Ready storing := ⟨by decide, rfl, rfl⟩

theorem witness_OnlyStoresChangeStorage :
    ∃ t, storing.slot = .idle ∧ storing.params.readings.flushPoints = .everyTurn ∧ storing.halted = false ∧
      Memory.wf storing.mem ∧ step storing = .next t ∧ cellAt t.mem 1 ≠ cellAt storing.mem 1 :=
  ⟨_, rfl, rfl, rfl, by decide, rfl, by decide⟩

/-- The common hypotheses, and the three clauses on the address: stored, out of range, write-hooked. -/
theorem witness_StoreTurnWritesItsCell :
    Ready storing ∧ Memory.wf storing.mem ∧ storing.params.readings.flushPoints = .everyTurn ∧
      NotReadHooked storing (nextAddress storing).toNat ∧
      decode (nextWord storing) = .store false 1 0 (.imm 1) ∧
      (NotWriteHooked storing (effectiveAddress storing 0 (.imm 0xFF)).toNat ∧
        (effectiveAddress storing 0 (.imm 0xFF)).toNat < memSize storing.params) ∧
      memSize storing.params ≤ (effectiveAddress storing 0 (.imm 0x100)).toNat ∧
      ¬NotWriteHooked hooked (effectiveAddress hooked 0 (.imm 0x53)).toNat := by
  refine ⟨storing_ready, ?_⟩
  unfold NotReadHooked NotWriteHooked; decide

theorem witness_LoadTurnLoadsItsWord :
    Ready hooked ∧ hooked.params.readings.flushPoints = .everyTurn ∧
      NotReadHooked hooked (nextAddress hooked).toNat ∧ decode (nextWord hooked) = .load false 2 0 (.imm 0x62) ∧
      NotReadHooked hooked (effectiveAddress hooked 0 (.imm 0x64)).toNat ∧
      FirstCovering hooked (effectiveAddress hooked 0 (.imm 0x62)).toNat 0 ⟨0x61, 1, 0⟩ := by
  refine ⟨⟨by decide, rfl, rfl⟩, rfl, ?_, by decide, ?_,
    ⟨rfl, by decide, fun j hj => absurd hj (Nat.not_lt_zero j)⟩⟩ <;> (unfold NotReadHooked; decide)

theorem witness_NextFetchSeesTheStore :
    Ready storing ∧ Memory.wf storing.mem ∧ storing.params.readings.flushPoints = .everyTurn ∧
      decode (nextWord storing) = .store false 1 0 (.imm 1) ∧
      NotWriteHooked storing (effectiveAddress storing 0 (.imm 1)).toNat ∧
      NotReadHooked storing (effectiveAddress storing 0 (.imm 1)).toNat ∧
      (effectiveAddress storing 0 (.imm 1)).toNat < memSize storing.params ∧
      (effectiveAddress storing 0 (.imm 1)).toNat = (nextAddress storing).toNat + 1 := by
  refine ⟨storing_ready, ?_⟩
  unfold NotReadHooked NotWriteHooked; decide

/-- A store to address 0x40 with a load of it behind it. -/
def storeThenLoad : State := { vec 0 [(1, 9)] quiet with mem := [(0, 0x420A0040), (1, 0x44020040)] }

theorem witness_LoadAfterStoreReturnsTheStoredWord :
    Ready storeThenLoad ∧ Memory.wf storeThenLoad.mem ∧
      storeThenLoad.params.readings.flushPoints = .everyTurn ∧
      decode (nextWord storeThenLoad) = .store false 1 0 (.imm 0x40) ∧
      (NotWriteHooked storeThenLoad (effectiveAddress storeThenLoad 0 (.imm 0x40)).toNat ∧
        NotReadHooked storeThenLoad (effectiveAddress storeThenLoad 0 (.imm 0x40)).toNat ∧
        (effectiveAddress storeThenLoad 0 (.imm 0x40)).toNat < memSize storeThenLoad.params) ∧
      ∃ t, step storeThenLoad = .next t ∧ decode (nextWord t) = .load false 2 0 (.imm 0x40) ∧
        effectiveAddress t 0 (.imm 0x40) = effectiveAddress storeThenLoad 0 (.imm 0x40) := by
  refine ⟨⟨by decide, rfl, rfl⟩, by decide, rfl, by decide, ?_, _, rfl, by decide, by decide⟩
  unfold NotReadHooked NotWriteHooked; decide

/-- Tracing on with room for one entry: the first step fills the trace, the second finds it full. -/
def tracing : State := { storing with params := { smallParams with traceEn := true, traceCap := 1 } }

theorem witness_TraceRecordsTheFetch :
    ∃ t, tracing.slot = .idle ∧ tracing.halted = false ∧ step tracing = .next t ∧ t.trace.length = 1 ∧
      ∃ u, t.slot = .idle ∧ t.halted = false ∧ step t = .next u ∧ u.trace.length = 1 :=
  ⟨_, rfl, rfl, rfl, rfl, _, rfl, rfl, rfl, rfl⟩

theorem witness_CycleIsOneStepPerCore :
    refusalOf (scenarioE .everyTurn) = none ∧ (scenarioE .everyTurn).core = 0 := by decide

theorem witness_CoresTakeTurnsInOrder :
    ∃ t, (scenarioE .everyTurn).halted = false ∧ step (scenarioE .everyTurn) = .next t ∧ t.halted = false :=
  ⟨_, rfl, rfl, rfl⟩

/-- `jump.sync always` at address 0, on the given number of cores. -/
def syncJump (caps : List Capability) : State :=
  { vec 0x4B010010 [] quiet with params := { smallParams with caps := caps } }

/-- Both clauses: a core below the last, and the last. -/
theorem witness_SynchronizedJumpRule :
    Ready (syncJump [.basic, .basic]) ∧
      decode (nextWord (syncJump [.basic, .basic])) = .jump false 5 true 0 (.imm 0x10) ∧
      conditionTable (syncJump [.basic, .basic]).flags 0 = true ∧
      (syncJump [.basic, .basic]).core + 1 < ncores (syncJump [.basic, .basic]).params ∧
      Ready { syncJump [.basic, .basic] with core := 1 } ∧
      { syncJump [.basic, .basic] with core := 1 }.core + 1 = ncores (syncJump [.basic, .basic]).params :=
  ⟨⟨by decide, rfl, rfl⟩, by decide, by decide, by decide, ⟨by decide, rfl, rfl⟩, by decide⟩

theorem witness_SingleCoreSynchronizedJumpHangs :
    Ready (syncJump [.basic]) ∧ ncores (syncJump [.basic]).params = 1 ∧
      NotReadHooked (syncJump [.basic]) (nextAddress (syncJump [.basic])).toNat ∧
      decode (nextWord (syncJump [.basic])) = .jump false 5 true 0 (.imm 0x10) ∧
      conditionTable (syncJump [.basic]).flags 0 = true := by
  refine ⟨⟨by decide, rfl, rfl⟩, ?_⟩
  unfold NotReadHooked; decide

theorem witness_UndeliverableWordsExecuteAsZero :
    Ready (vec 0xC0000000 [] quiet) ∧ (vec 0xC0000000 [] quiet).pc.toNat < memSize (vec 0xC0000000 [] quiet).params ∧
      NotReadHooked (vec 0xC0000000 [] quiet) (vec 0xC0000000 [] quiet).pc.toNat ∧
      bits (cellAt (vec 0xC0000000 [] quiet).mem (vec 0xC0000000 [] quiet).pc.toNat) 29 0 = 0 := by
  refine ⟨⟨by decide, rfl, rfl⟩, ?_⟩
  unfold NotReadHooked; decide

theorem witness_EndOfCycleReadingDefersTheLoad :
    Ready (scenarioE .endOfCycle) ∧ (scenarioE .endOfCycle).params.readings.flushPoints = .endOfCycle ∧
      (scenarioE .endOfCycle).core + 1 < ncores (scenarioE .endOfCycle).params ∧
      decode (nextWord (scenarioE .endOfCycle)) = .load false 1 0 (.imm 0x10) :=
  ⟨⟨by decide, rfl, rfl⟩, rfl, by decide, by decide⟩

end Sys2Proof.Tests
end

section
/-! SUPPORT. Proofs for 00_scope.md, laws: the end of an instruction that writes one register (41_alu.md R90), the
operands and the end of a turn, each said once. -/

namespace Sys2Proof.Machine

/-! ### Writing back: one register, the flags, `pc + 1` -/

/-- The frame and the value that `Completes` asks for, for every instruction that ends by writing one register. -/
theorem completes_of_writeback {i : Instr} {rd : Reg} {s : State} (w : Word) (f : Flags)
    (h : exec i s = .next (advance (writeReg rd.val w { s with flags := f }))) :
    Completes i rd s (normalize w).toNat f := by
  refine ⟨_, h, rfl, ?dest, rfl, ?others, fun _ => rfl, rfl⟩
  case dest =>
    rw [DestNat, readReg_advance, readReg_writeReg_reg, if_pos rfl]
    split <;> rfl
  case others =>
    intro j hj
    rw [readReg_advance, readReg_writeReg_reg, if_neg hj]
    rfl

theorem completes_of_finishAlu {i : Instr} {moi : Bool} {rd : Reg} {out : AluOut} {s : State}
    (h : exec i s = .next (finishAlu moi rd out s)) :
    Completes i rd s out.value.toNat (if moi then applyUpdate out.flags s.flags else s.flags) := by
  simpa using completes_of_writeback (zext32 out.value) _ h

/-- Behind the gate of R79 a multiply ends like an ALU instruction without a flag request. -/
theorem completes_of_finishMul {i : Instr} {rd : Reg} {v : Half} {s : State}
    (hcan : canMultiply s.params s.core = true) (h : exec i s = .next (finishMul rd v s)) :
    Completes i rd s v.toNat s.flags := by
  rw [finishMul, if_pos hcan] at h
  simpa using completes_of_writeback (zext32 v) s.flags h

/-- A committed Zero and Sign update keeps Carry and Overflow (41_alu.md R99, R100). -/
theorem applyUpdate_zeroSign (r : Half) (f : Flags) :
    applyUpdate (zeroSign r) f = arithFlags r.toNat f.c f.v := by
  simp [applyUpdate, zeroSign, arithFlags, bit15, ← BitVec.toNat_inj]

/-! ### Operands -/

theorem ofInt16_toNat (x : Int) : (BitVec.ofInt 16 x).toNat = wrap16 x := BitVec.toNat_ofInt x

theorem s16_eq_signed16 (h : Half) : s16 h = signed16 h.toNat := rfl

/-- The shift amount is the low 4 bits of the word, so that of its low half serves as well. -/
theorem secHalf_mod_sixteen (s : State) (sec : Operand) :
    secHalf s sec % 16 = (secValue s sec).toNat % 16 :=
  Nat.mod_mod_of_dvd _ (by decide)

theorem secValue_congr {s t : State} (h : t.regs = s.regs) (sec : Operand) : secValue t sec = secValue s sec := by
  cases sec with
  | imm field => rfl
  | reg field => simp only [secValue, readReg_congr h]

theorem effectiveAddress_congr {s t : State} (h : t.regs = s.regs) (rs : Reg) (sec : Operand) :
    effectiveAddress t rs sec = effectiveAddress s rs sec := by
  simp only [effectiveAddress, primValue, readReg_congr h, secValue_congr h]

/-! ### The end of a turn (40_cycle_engine.md R70) -/

theorem cycleEnds_iff {s : State} : cycleEnds s = true ↔ s.halted = true ∨ ncores s.params ≤ s.core + 1 := by
  simp [cycleEnds]

theorem cycleEnds_eq_false {s : State} (hh : s.halted = false) (hk : s.core + 1 < ncores s.params) :
    cycleEnds s = false := by
  simp [cycleEnds, hh, hk]

theorem flushAfterTurn_of_everyTurn {s : State} (h : s.params.readings.flushPoints = .everyTurn) :
    flushAfterTurn s = flush s := by
  simp only [flushAfterTurn, h]

/-- Where the two readings of R6 agree: the turn that ends a cycle is followed by a flush. -/
theorem flushAfterTurn_of_cycleEnds {s : State} (h : cycleEnds s = true) : flushAfterTurn s = flush s := by
  unfold flushAfterTurn
  split
  · rfl
  · rw [if_pos h]

/-- Where they differ: under `endOfCycle` the slot stays armed until then. -/
theorem flushAfterTurn_within {s : State} (h : s.params.readings.flushPoints = .endOfCycle)
    (he : cycleEnds s = false) : flushAfterTurn s = s := by
  simp [flushAfterTurn, h, he]

theorem endTurn_of_cycleEnds {s : State} (h : cycleEnds s = true) :
    endTurn s = { flush s with core := 0, imageLoadable := false } := by
  rw [endTurn, flushAfterTurn_of_cycleEnds h, if_pos h]

theorem endTurn_of_next_core {s : State} (h : cycleEnds s = false) :
    endTurn s = { flushAfterTurn s with core := s.core + 1, imageLoadable := false } := by
  simp [endTurn, h]

/-- Within a cycle the `endOfCycle` reading only passes the turn on. -/
theorem endTurn_within {s : State} (h : s.params.readings.flushPoints = .endOfCycle) (he : cycleEnds s = false) :
    endTurn s = { s with core := s.core + 1, imageLoadable := false } := by
  rw [endTurn_of_next_core he, flushAfterTurn_within h he]

/-- The step of a machine with nothing pending: dispatch of the fetched word, then the end of the turn. -/
theorem step_of_ready {s : State} (h : Ready s) :
    step s = mapNext endTurn (exec (decode (nextWord s)) (afterFetch (wrapPc s))) := by
  have hb : beginTurn s = s := by simp [beginTurn, h.slot]
  rw [step_of_running h.config h.running, hb]
  rfl

end Sys2Proof.Machine
end

section
/-! SUPPORT. Proofs for 00_scope.md, the statements on shifts: shl, shr (41_alu.md R99, R100; 44_logic_shift.md) under
every reading of R6. -/

namespace Sys2Proof.Machine

theorem aluShl_value_toNat (kind : ShrKind) (a : Half) (n : Word) :
    (aluShl a n).value.toNat = shiftValue kind false a.toNat n.toNat :=
  (BitVec.toNat_ofNat _ _).trans (Nat.mod_mod _ _)

theorem aluShr_value_toNat (kind : ShrKind) (a : Half) (n : Word) :
    (aluShr kind a n).value.toNat = shiftValue kind true a.toNat n.toNat := by
  cases kind with
  | logical =>
    have hlt : a.toNat / 2 ^ (n.toNat % 16) < 2 ^ 16 := (Nat.div_le_self _ _).trans_lt a.isLt
    exact (BitVec.toNat_ofNat _ _).trans (Nat.mod_eq_of_lt hlt)
  | arithmetic => exact ofInt16_toNat _

/-- A logical right shift by 1 or more clears bit 15. -/
theorem shiftValue_logical_lt {p q : Nat} (hp : p < 65536) (hq : 1 ≤ q % 16) :
    shiftValue .logical true p q < 32768 := by
  change p / 2 ^ (q % 16) < 32768
  have htwo : 2 ^ 1 ≤ 2 ^ (q % 16) := Nat.pow_le_pow_right (by decide) hq
  have hdiv : p / 2 ^ (q % 16) ≤ p / 2 ^ 1 := Nat.div_le_div_left htwo (by decide)
  omega

/-- Settles O16: the value by the kind of shift, the flags as proposed by `zeroSign`. -/
theorem shiftRightRule : Obligations.ShiftRightRule := by
  intro kind a n
  refine ⟨aluShr_value_toNat kind a n, ?_, ?_⟩
  · simp [aluShr, zeroSign, bit15, ← BitVec.toNat_inj]
  · rintro rfl hn
    rw [aluShr_value_toNat]
    exact shiftValue_logical_lt a.isLt hn

theorem shiftsRight_of_shl (s : State) (sec : Operand) :
    shiftsRight s false sec = decide (s.params.readings.shiftDir = .resolved ∧ 32768 ≤ secHalf s sec) := by
  unfold shiftsRight
  cases s.params.readings.shiftDir <;> simp [bit15, secHalf]

theorem shiftsRight_of_shr (s : State) (sec : Operand) :
    shiftsRight s true sec = decide (s.params.readings.shiftDir = .field ∨ 32768 ≤ secHalf s sec) := by
  unfold shiftsRight
  cases s.params.readings.shiftDir <;> simp [bit15, secHalf]

theorem shiftOut_value_toNat (s : State) (right : Bool) (rs : Reg) (sec : Operand) :
    (shiftOut s right rs sec).value.toNat =
      shiftValue s.params.readings.shrKind right (primHalf s rs) (secHalf s sec) := by
  have amount : ∀ kind p, shiftValue kind right p (secHalf s sec) =
      shiftValue kind right p (secValue s sec).toNat := fun kind p => by
    simp only [shiftValue, secHalf_mod_sixteen]
  rw [amount, ← lo16_primValue_toNat]
  cases right with
  | false => exact aluShl_value_toNat _ _ _
  | true => exact aluShr_value_toNat _ _ _

theorem shiftOut_flags (s : State) (right : Bool) (rs : Reg) (sec : Operand) :
    (shiftOut s right rs sec).flags = zeroSign (shiftOut s right rs sec).value := by
  cases right <;> rfl

/-- Both shift instructions, in the direction that the reading of R6 selects. -/
theorem completes_of_shiftOut {i : Instr} {moi right : Bool} {rd rs : Reg} {sec : Operand} {s : State}
    (h : exec i s = .next (finishAlu moi rd (shiftOut s right rs sec) s)) :
    Completes i rd s (shiftValue s.params.readings.shrKind right (primHalf s rs) (secHalf s sec))
      (if moi then arithFlags (shiftValue s.params.readings.shrKind right (primHalf s rs) (secHalf s sec))
        s.flags.c s.flags.v else s.flags) := by
  have hc := completes_of_finishAlu h
  rwa [shiftOut_flags, applyUpdate_zeroSign, shiftOut_value_toNat] at hc

/-- Settles O26: each row is `completes_of_shiftOut` in its direction, its own (D1) or the resolved operand's. -/
theorem shiftsWriteShiftedValue : Obligations.ShiftsWriteShiftedValue := by
  intro moi rd rs sec s
  constructor
  · rintro right rfl
    rw [← shiftsRight_of_shl]
    exact completes_of_shiftOut rfl
  · rintro right rfl
    rw [← shiftsRight_of_shr]
    exact completes_of_shiftOut rfl

end Sys2Proof.Machine
end

section
/-! SUPPORT. Proofs for 00_scope.md, the statement on multiplies (45_multiply.md) under every reading of R6. -/

namespace Sys2Proof.Machine

section ProductHalves

variable (s : State) (rs : Reg) (sec : Operand)

theorem aluMulx_toNat (a b : Half) :
    (aluMulx a b).toNat = wrap16 ((a.toNat : Int) * signed16 b.toNat / 65536) := ofInt16_toNat _

theorem productLow_toNat : (productLow s rs sec).toNat = primHalf s rs * secHalf s sec % 65536 := by
  rw [← lo16_primValue_toNat, ← lo16_secValue_toNat]
  exact (BitVec.toNat_ofNat _ _).trans (Nat.mod_mod _ _)

theorem productSignedHigh_toNat : (productSignedHigh s rs sec).toNat =
    wrap16 (signed16 (primHalf s rs) * signed16 (secHalf s sec) / 65536) := by
  rw [← lo16_primValue_toNat, ← lo16_secValue_toNat]
  exact ofInt16_toNat _

theorem productHigh_toNat : (productHigh s rs sec).toNat = primHalf s rs * secHalf s sec / 65536 := by
  have hprod : primHalf s rs * secHalf s sec < 65536 * 65536 :=
    Nat.mul_lt_mul'' (primHalf_lt s rs) (secHalf_lt s sec)
  have hlt : primHalf s rs * secHalf s sec / 65536 < 2 ^ 16 := Nat.div_lt_of_lt_mul hprod
  rw [← lo16_primValue_toNat, ← lo16_secValue_toNat] at hlt ⊢
  exact (BitVec.toNat_ofNat _ _).trans (Nat.mod_eq_of_lt hlt)

theorem productMixedHigh_toNat : (productMixedHigh s rs sec).toNat =
    mixedHigh s.params.readings.mulxSigned (primHalf s rs) (secHalf s sec) := by
  cases h : s.params.readings.mulxSigned with
  | secondary =>
    simp only [productMixedHigh, h, aluMulx_toNat, lo16_primValue_toNat, lo16_secValue_toNat, mixedHigh]
  | primary =>
    simp only [productMixedHigh, h, aluMulx_toNat, lo16_primValue_toNat, lo16_secValue_toNat, mixedHigh]

end ProductHalves

theorem byPolarity_toNat (p : Params) (own other : Half) :
    (byPolarity p own other).toNat = rowValue p.readings.mulPolarity own.toNat other.toNat := by
  cases h : p.readings.mulPolarity with
  | plain => simp only [byPolarity, h, rowValue]
  | reversed => simp only [byPolarity, h, rowValue]

/-- Settles O27: each row is `completes_of_finishMul` with its product half as a natural. -/
theorem multipliesWriteProductHalves : Obligations.MultipliesWriteProductHalves := by
  intro rd rs sec s hcan
  simp only [← productLow_toNat, ← productSignedHigh_toNat, ← productHigh_toNat, ← productMixedHigh_toNat,
    ← byPolarity_toNat]
  exact ⟨completes_of_finishMul hcan rfl, completes_of_finishMul hcan rfl, completes_of_finishMul hcan rfl,
    completes_of_finishMul hcan rfl⟩

end Sys2Proof.Machine
end

section
/-! SUPPORT. Proofs for 00_scope.md, the statements on the flush points (90_conflicts.md C1) and on reset. -/

namespace Sys2Proof.Machine

/-- Settles O39: the turn that ends a cycle is the same under both readings; on any other only the flush differs. -/
theorem turnEndRule : Obligations.TurnEndRule := by
  intro s
  have last (h : s.halted = true ∨ ncores s.params ≤ s.core + 1) := endTurn_of_cycleEnds (cycleEnds_iff.mpr h)
  refine ⟨fun hf => ⟨last, fun hh hk => ?_⟩, fun hf => ⟨last, fun hh hk => ?_⟩⟩
  · rw [endTurn_of_next_core (cycleEnds_eq_false hh hk), flushAfterTurn_of_everyTurn hf]
  · exact endTurn_within hf (cycleEnds_eq_false hh hk)

theorem exec_load (moi : Bool) (rd rs : Reg) (sec : Operand) (s : State) :
    exec (.load moi rd rs sec) s = .next (advance (setSlot (.read (effectiveAddress s rs sec) rd) s)) := rfl

/-- Settles O60: the load arms the slot, and no flush follows a turn within the cycle. -/
theorem endOfCycleReadingDefersTheLoad : Obligations.EndOfCycleReadingDefersTheLoad := by
  intro s moi rd rs sec hready hf hk hload
  have hstep := step_of_ready hready
  rw [hload, exec_load, mapNext_next, endTurn_within ?flushPoints ?within] at hstep
  case flushPoints => simpa using hf
  case within => exact cycleEnds_eq_false (by simpa using hready.running) (by simpa using hk)
  have haddr := effectiveAddress_congr (s := s) (t := afterFetch (wrapPc s)) (afterFetch_regs _) rs sec
  exact ⟨_, hstep, congrArg (Slot.read · rd) haddr, afterFetch_regs _, congrArg (· + 1) (afterFetch_core _)⟩

/-- Settles O44: `construct` keeps every other field of `State.reset`, and an empty image lists no cell. -/
theorem resetIsAConstruction : Obligations.ResetIsAConstruction := by
  refine ⟨rfl, rfl, rfl, ?_, cellAt_nil⟩
  obtain ⟨_, hno⟩ | ⟨hload, _⟩ := loadImage_cases [] (construct resetParams [] [])
  · exact absurd ⟨rfl, rfl⟩ hno
  · exact hload

end Sys2Proof.Machine
end

section
/-! SUPPORT. Proofs for 10_state.md, words and registers: normalization at every value boundary (R11), the register
read and write (R13, R14). -/

namespace Sys2Proof.Machine

/-! ### Normalization -/

/-- `w[29:0]` is the remainder that `normalize_eq_mod` tests. -/
theorem bits_low30 (w : Word) : bits w 29 0 = w.toNat % 2 ^ 30 := by
  rw [bits, pow_zero, Nat.div_one]

theorem normalize_eq_zero_iff (w : Word) : normalize w = 0 ↔ bits w 29 0 = 0 := by
  rw [normalize_eq_mod, bits_low30]
  constructor
  · intro h
    by_contra hlow
    rw [if_neg hlow] at h
    exact hlow (by rw [h]; rfl)
  · exact fun hlow => if_pos hlow

theorem normalize_of_bits_ne_zero {w : Word} (h : bits w 29 0 ≠ 0) : normalize w = w := by
  rw [bits_low30] at h
  rw [normalize_eq_mod, if_neg h]

/-! ### Registers -/

theorem readReg_of_no_register (s : State) {i : Nat} (hi : i = 0 ∨ 31 < i) : readReg s i = 0 :=
  dif_neg (by omega)

theorem writeReg_of_no_register (s : State) {i : Nat} (hi : i = 0 ∨ 31 < i) (v : Word) : writeReg i v s = s := by
  have hregs : regsAfterWrite s.regs i v = s.regs := dif_neg (by omega)
  rw [writeReg, hregs]

theorem readReg_writeReg_same (s : State) {i : Nat} (h1 : 1 ≤ i) (h31 : i ≤ 31) (v : Word) :
    readReg (writeReg i v s) i = normalize v := by
  rw [readReg_writeReg, if_pos ⟨rfl, h1, h31⟩]

theorem readReg_writeReg_ne (s : State) {i j : Nat} (hj : j ≠ i) (v : Word) :
    readReg (writeReg i v s) j = readReg s j := by
  rw [readReg_writeReg, if_neg fun h => hj h.1]

/-- Settles O7: the two branches of the register read. -/
theorem registerReadRule : Obligations.RegisterReadRule :=
  fun s _ => ⟨readReg_of_no_register s, fun h => dif_pos h⟩

/-- Settles O8: read after write, at the written index and at every other. -/
theorem registerWriteRule : Obligations.RegisterWriteRule := by
  intro s i v
  refine ⟨fun hi => writeReg_of_no_register s hi v, fun h1 h31 => readReg_writeReg_same s h1 h31 v,
    fun j hj => readReg_writeReg_ne s hj v, rfl, ?normalized⟩
  intro hnorm j
  rw [readReg_writeReg]
  split
  · exact normalize_idem v
  · exact hnorm j

/-! ### The other value boundaries -/

theorem cellAt_memWrite_same {s : State} {a : Nat} (hwf : Memory.wf s.mem) (hhook : NotWriteHooked s a)
    (ha : a < memSize s.params) (v : Word) : cellAt (memWrite a v s).mem a = normalize v := by
  rw [memWrite_of_notHooked hhook, if_pos ha, cellAt_cellSet hwf, if_pos rfl]

/-- Settles O6: the patterns are the words whose low 30 bits are zero, and each boundary applies `normalize`; a half
passes it unchanged. -/
theorem normalizeAppliesAtEveryBoundary : Obligations.NormalizeAppliesAtEveryBoundary := by
  refine ⟨fun w => rfl, normalize_eq_zero_iff, fun w => normalize_of_bits_ne_zero, normalize_idem, normalize_zext32,
    fun s i v h1 h31 => readReg_writeReg_same s h1 h31 v,
    fun s a v hwf hhook ha => cellAt_memWrite_same hwf hhook ha v,
    fun s a hhook ha => ?read, fun s f => ⟨rfl, rfl⟩, fun s i o h1 h31 => ?alu⟩
  case read => rw [memReadWord_of_notHooked hhook, if_pos ha]
  case alu => rw [readReg_writeReg_same s h1 h31, normalize_zext32]

end Sys2Proof.Machine
end

section
/-! SUPPORT. Proofs for 10_state.md, the invariant between two turns (R22): what a dispatch, a flush and a turn do to
the parts it speaks of, each said once. -/

namespace Sys2Proof.Machine

/-! ### The dispatch -/

section DispatchFields

variable {s t : State} (h : DispatchFrame s t)
include h

theorem DispatchFrame.params : t.params = s.params := (congrArg State.params h :)
theorem DispatchFrame.core : t.core = s.core := (congrArg State.core h :)
theorem DispatchFrame.mem : t.mem = s.mem := (congrArg State.mem h :)
theorem DispatchFrame.rhooks : t.rhooks = s.rhooks := (congrArg State.rhooks h :)
theorem DispatchFrame.whooks : t.whooks = s.whooks := (congrArg State.whooks h :)
theorem DispatchFrame.trace : t.trace = s.trace := (congrArg State.trace h :)

end DispatchFields

/-- The inversion of `exec_frame`, from a next state that is given. -/
theorem dispatchFrame_of_exec {i : Instr} {s t : State} (h : exec i s = .next t) : DispatchFrame s t := by
  obtain ⟨u, hu, hframe⟩ := exec_frame i s
  obtain rfl : u = t := Host.Outcome.next.inj (hu.symm.trans h)
  exact hframe

/-- The gate of R79 decides whether a multiply writes its register. -/
theorem finishMul_regs_cases (rd : Reg) (v : Half) (s : State) :
    (finishMul rd v s).regs = s.regs ∨ ∃ k w, (finishMul rd v s).regs = regsAfterWrite s.regs k w := by
  rw [finishMul, advance_regs]
  split
  · exact .inr ⟨_, _, rfl⟩
  · exact .inl rfl

/-- Everything a dispatch can do to the registers: nothing, or one register write. -/
theorem exec_regs_cases {i : Instr} {s t : State} (h : exec i s = .next t) :
    t.regs = s.regs ∨ ∃ k v, t.regs = regsAfterWrite s.regs k v := by
  cases i with
  | jump moi rd sync cond sec =>
    simp only [exec, execJump] at h
    split at h
    · split at h
      · obtain rfl := Host.Outcome.next.inj h
        exact .inl rfl
      · obtain rfl := Host.Outcome.next.inj h
        exact .inr ⟨_, _, rfl⟩
    · obtain rfl := Host.Outcome.next.inj h
      exact .inl rfl
  | load moi rd rs sec | store moi rd rs sec | halt moi rd rs sec =>
    obtain rfl := Host.Outcome.next.inj h
    exact .inl rfl
  | mul rd rs sec | muls rd rs sec | mulh rd rs sec | mulx rd rs sec =>
    obtain rfl := Host.Outcome.next.inj h
    exact finishMul_regs_cases _ _ s
  | _ =>
    obtain rfl := Host.Outcome.next.inj h
    exact .inr ⟨_, _, rfl⟩

/-! ### Storage and registers -/

theorem mem_cellSet_lt {m : Memory} {n a : Nat} (h : ∀ c ∈ m, c.1 < n) (ha : a < n) (v : Word) :
    ∀ c ∈ cellSet m a v, c.1 < n := by
  intro c hc
  obtain hold | ⟨rfl, _⟩ := mem_cellSet hc
  · exact h c hold
  · exact ha

theorem flush_storageInRange {s : State} (h : StorageInRange s) : StorageInRange (flush s) := by
  unfold StorageInRange
  rw [flush_params]
  obtain hmem | ⟨a, r, _, _, ha, hmem⟩ := flush_mem_cases s
  · rw [hmem]
    exact h
  · rw [hmem]
    exact mem_cellSet_lt h ha _

theorem regsNormalized_of_regs_cases {s t : State} (h : RegsNormalized s)
    (hregs : t.regs = s.regs ∨ ∃ k v, t.regs = regsAfterWrite s.regs k v) : RegsNormalized t := by
  unfold RegsNormalized
  obtain hsame | ⟨k, v, hwritten⟩ := hregs
  · rw [hsame]
    exact h
  · rw [hwritten]
    exact regsAfterWrite_normalized h k v

theorem flush_regsNormalized {s : State} (h : RegsNormalized s) : RegsNormalized (flush s) :=
  regsNormalized_of_regs_cases h ((flush_regs_cases s).imp_right fun ⟨_, _, _, e⟩ => ⟨_, _, e⟩)

/-! ### The turn -/

theorem takeTurn_dispatchFrame {s u : State} (h : takeTurn s = .next u) :
    DispatchFrame (afterFetch (wrapPc s)) u :=
  dispatchFrame_of_exec h

theorem takeTurn_regsNormalized {s u : State} (hs : RegsNormalized s) (h : takeTurn s = .next u) :
    RegsNormalized u := by
  have hcases := exec_regs_cases h
  rw [afterFetch_regs, wrapPc_regs] at hcases
  exact regsNormalized_of_regs_cases hs hcases

/-- A full buffer drops the entry (D16), so the trace stays within its capacity. -/
theorem traceFetch_trace_length_le {s : State} (h : s.trace.length ≤ s.params.traceCap) (w : Word) :
    (traceFetch w s).trace.length ≤ s.params.traceCap := by
  rw [traceFetch_trace]
  split
  · next hroom =>
    rw [List.length_append, List.length_singleton]
    exact hroom.2
  · exact h

theorem afterFetch_trace_length_le {s : State} (h : s.trace.length ≤ s.params.traceCap) :
    (afterFetch s).trace.length ≤ s.params.traceCap := by
  have hread : (memReadEffect s.pc.toNat s).trace.length ≤ (memReadEffect s.pc.toNat s).params.traceCap := by
    rwa [memReadEffect_trace, memReadEffect_params]
  have htraced := traceFetch_trace_length_le hread (fetchWord s)
  rwa [memReadEffect_params] at htraced

/-! ### The end of a turn -/

theorem flushAfterTurn_cases (s : State) : flushAfterTurn s = flush s ∨ flushAfterTurn s = s := by
  unfold flushAfterTurn
  split
  · exact .inl rfl
  · split
    · exact .inl rfl
    · exact .inr rfl

/-- The next turn is again one of a core of the roster. -/
theorem endTurn_refusalOf {s : State} (h : refusalOf s = none) : refusalOf (endTurn s) = none := by
  obtain ⟨hrange, hcore⟩ := refusalOf_eq_none.mp h
  refine refusalOf_eq_none.mpr ⟨by simpa [configInRange] using hrange, ?_⟩
  rw [endTurn_core, endTurn_params]
  split
  · omega
  · next hends =>
    rw [cycleEnds_iff] at hends
    omega

/-- Under either reading of R6 the slot is flushed by the turn that ends a cycle. -/
theorem endTurn_slotIdleAtBoundary (s : State) : SlotIdleAtBoundary (endTurn s) := by
  have hslot : (endTurn s).slot = (flushAfterTurn s).slot := rfl
  rw [SlotIdleAtBoundary, hslot, endTurn_params, endTurn_core]
  rintro (hevery | hboundary)
  · rw [flushAfterTurn_of_everyTurn hevery, flush_slot]
  · have hends : cycleEnds s = true := by
      by_contra hgoes
      rw [if_neg hgoes] at hboundary
      omega
    rw [flushAfterTurn_of_cycleEnds hends, flush_slot]

/-- The end of a turn establishes the invariant of R22 from the clauses that hold within a turn. -/
theorem endTurn_inv {s : State} (hconfig : refusalOf s = none) (hwf : Memory.wf s.mem)
    (hrange : StorageInRange s) (hregs : RegsNormalized s) (htrace : s.trace.length ≤ s.params.traceCap) :
    (endTurn s).Inv where
  config := endTurn_refusalOf hconfig
  storage := flushAfterTurn_wf hwf
  inRange := by
    change StorageInRange (flushAfterTurn s)
    obtain e | e := flushAfterTurn_cases s
    · rw [e]
      exact flush_storageInRange hrange
    · rwa [e]
  regs := by
    change RegsNormalized (flushAfterTurn s)
    obtain e | e := flushAfterTurn_cases s
    · rw [e]
      exact flush_regsNormalized hregs
    · rwa [e]
  slot := endTurn_slotIdleAtBoundary s
  trace := by rwa [endTurn_trace, endTurn_params]
  halted := by
    intro hhalted
    rw [endTurn_halted] at hhalted
    rw [endTurn_core, if_pos (cycleEnds_iff.mpr (.inl hhalted))]
  image := by
    intro himage
    rw [endTurn_imageLoadable] at himage
    contradiction

/-! ### The step -/

/-- Between turns nothing is pending at the start of a cycle, so the flush there does nothing. -/
theorem State.Inv.beginTurn_eq {s : State} (h : s.Inv) : beginTurn s = s := by
  unfold beginTurn
  split
  · next hcore => exact flush_of_idle (h.slot (.inr hcore))
  · rfl

theorem takeTurn_endTurn_inv {s u : State} (hs : s.Inv) (h : takeTurn s = .next u) : (endTurn u).Inv := by
  have hframe := takeTurn_dispatchFrame h
  have hparams : u.params = s.params := by simpa using hframe.params
  have hmem : u.mem = s.mem := by simpa using hframe.mem
  apply endTurn_inv
  · rw [refusalOf_congr hparams (by simpa using hframe.rhooks) (by simpa using hframe.whooks)
      (by simpa using hframe.core)]
    exact hs.config
  · rw [hmem]
    exact hs.storage
  · unfold StorageInRange
    rw [hmem, hparams]
    exact hs.inRange
  · exact takeTurn_regsNormalized hs.regs h
  · rw [hframe.trace, hparams]
    exact afterFetch_trace_length_le (s := wrapPc s) hs.trace

/-- Settles O41: a halted step changes nothing; a turn keeps the clauses that hold within it, and its end
establishes the rest. -/
theorem everyStepKeepsTheInvariant : Obligations.EveryStepKeepsTheInvariant := by
  intro s t hs hstep
  obtain ⟨_, ⟨_, rfl⟩ | ⟨_, u, hturn, rfl⟩⟩ := step_cases hstep
  · exact hs
  · rw [hs.beginTurn_eq] at hturn
    exact takeTurn_endTurn_inv hs hturn

end Sys2Proof.Machine
end

section
/-! SUPPORT. Proofs for 10_state.md, the host's moves (R23, R24; 70_reset_and_hazards.md R192, R196): the image in
storage, when the host has a move, and what a cycle leaves of the image load. -/

namespace Sys2Proof.Machine

/-! ### The image in storage -/

theorem cellAt_imageCells_below {base a : Nat} (h : a < base) (image : List Word) :
    cellAt (imageCells base image) a = 0 := by
  apply cellAt_of_not_listed
  intro c hc
  exact (h.trans_le (mem_imageCells hc).1).ne'

/-- The cells of an image hold its words verbatim, from the base address on. -/
theorem cellAt_imageCells (base : Nat) (image : List Word) (a : Nat) :
    cellAt (imageCells base image) a = if base ≤ a then image.getD (a - base) 0 else 0 := by
  induction image generalizing base with
  | nil => simp [imageCells]
  | cons w rest ih =>
    obtain hlt | rfl | hgt := Nat.lt_trichotomy a base
    · rw [cellAt_imageCells_below hlt, if_neg hlt.not_ge]
    · have hzero := cellAt_imageCells_below (Nat.lt_succ_self a) rest
      simp only [imageCells, Nat.le_refl, if_true, Nat.sub_self, List.getD_cons_zero]
      split
      · next hw => rw [hzero, hw]
      · rw [cellAt_cons, if_pos rfl]
    · have hrest : cellAt (imageCells (base + 1) rest) a = (w :: rest).getD (a - base) 0 := by
        rw [ih, if_pos (Nat.succ_le_of_lt hgt), show a - base = a - (base + 1) + 1 by omega, List.getD_cons_succ]
      simp only [imageCells]
      rw [if_pos hgt.le, ← hrest]
      split
      · rfl
      · rw [cellAt_cons, if_neg hgt.ne]

theorem cellAt_storeImage (image : List Word) (s : State) (a : Nat) :
    cellAt (storeImage image s).mem a = if a < memSize s.params then image.getD a 0 else 0 := by
  have htake : (image.take (memSize s.params)).getD a 0 = if a < memSize s.params then image.getD a 0 else 0 := by
    rw [List.getD_eq_getElem?_getD, List.getElem?_take, List.getD_eq_getElem?_getD]
    split <;> rfl
  rw [storeImage, cellAt_imageCells, if_pos (Nat.zero_le a), Nat.sub_zero, htake]

/-! ### When the host has a move -/

theorem loadImage_of_loadable {s : State} (hcore : s.core = 0) (hload : s.imageLoadable = true) (image : List Word) :
    loadImage image s = storeImage image s := by
  obtain ⟨_, hno⟩ | ⟨e, _⟩ := loadImage_cases image s
  · exact absurd ⟨hcore, hload⟩ hno
  · exact e

theorem loadImage_of_not_loadable {s : State} (h : ¬(s.core = 0 ∧ s.imageLoadable = true)) (image : List Word) :
    loadImage image s = s := by
  obtain ⟨e, _⟩ | ⟨_, hloadable⟩ := loadImage_cases image s
  · exact e
  · exact absurd hloadable h

theorem loadImage_of_imageLoadable_false {s : State} (h : s.imageLoadable = false) (image : List Word) :
    loadImage image s = s :=
  loadImage_of_not_loadable (by simp [h]) image

theorem loadImage_loadImage (again image : List Word) (s : State) :
    loadImage again (loadImage image s) = loadImage image s := by
  obtain ⟨e, hno⟩ | ⟨e, _⟩ := loadImage_cases image s
  · rw [e]
    exact loadImage_of_not_loadable hno again
  · rw [e]
    exact loadImage_of_imageLoadable_false rfl again

theorem betweenCycles_eq_true {s : State} (h : s.core = 0) : betweenCycles s = true := decide_eq_true h

theorem betweenCycles_eq_false {s : State} (h : s.core ≠ 0) : betweenCycles s = false := decide_eq_false h

theorem inspect_between {α : Type} {s : State} (h : s.core = 0) (value : α) : inspect s value = some value :=
  if_pos (betweenCycles_eq_true h)

theorem inspect_within {α : Type} {s : State} (h : s.core ≠ 0) (value : α) : inspect s value = none := by
  simp [inspect, betweenCycles_eq_false h]

theorem runCycle_within {s : State} (hcore : s.core ≠ 0) (hconfig : refusalOf s = none) (hrun : s.halted = false) :
    runCycle s = .refused .withinCycle := by
  simp [runCycle, hconfig, hrun, betweenCycles_eq_false hcore]

/-! ### After a step and after a cycle -/

theorem step_running_cases {s t : State} (hrun : s.halted = false) (h : step s = .next t) :
    ∃ u, t = endTurn u := by
  obtain ⟨_, ⟨hhalt, _⟩ | ⟨_, u, _, e⟩⟩ := step_cases h
  · rw [hrun] at hhalt
    contradiction
  · exact ⟨u, e⟩

/-- What the remaining turns of a cycle answer: nothing was left to take, or the end of a turn. -/
theorem cycleTurns_cases {n : Nat} {s t : State} (h : cycleTurns n s = .next t) :
    (n = 0 ∧ t = s) ∨ ∃ u, t = endTurn u := by
  induction n generalizing s with
  | zero => exact .inl ⟨rfl, (Host.Outcome.next.inj h).symm⟩
  | succ n ih =>
    rw [cycleTurns] at h
    split at h
    · next u _ =>
      split at h
      · exact .inr ⟨u, (Host.Outcome.next.inj h).symm⟩
      · obtain ⟨_, e⟩ | hlater := ih h
        · exact .inr ⟨u, e⟩
        · exact .inr hlater
    · contradiction
    · contradiction

/-- A configuration that is not refused has a core, so a cycle of it takes a turn. -/
theorem ncores_pos_of_not_refused {s : State} (h : refusalOf s = none) : 0 < ncores s.params :=
  Nat.zero_lt_of_lt (refusalOf_eq_none.mp h).2

theorem runCycle_running_cases {s t : State} (hrun : s.halted = false) (h : runCycle s = .next t) :
    ∃ u, t = endTurn u := by
  rw [runCycle] at h
  split at h
  · contradiction
  · next hconfig =>
    rw [hrun, if_neg Bool.false_ne_true] at h
    split at h
    · obtain ⟨hnone, _⟩ | hlast := cycleTurns_cases h
      · exact absurd hnone (ncores_pos_of_not_refused hconfig).ne'
      · exact hlast
    · contradiction

/-! ### The statement, one part for each time -/

theorem addReadHook_of_room {s : State} (hcore : s.core = 0) (hroom : s.rhooks.length < 32) (h : Hook) :
    addReadHook h s = { s with rhooks := s.rhooks ++ [h] } :=
  if_pos ⟨betweenCycles_eq_true hcore, hroom⟩

theorem addWriteHook_of_room {s : State} (hcore : s.core = 0) (hroom : s.whooks.length < 32) (h : Hook) :
    addWriteHook h s = { s with whooks := s.whooks ++ [h] } :=
  if_pos ⟨betweenCycles_eq_true hcore, hroom⟩

theorem addReadHook_refused {s : State} (hno : s.core ≠ 0 ∨ 32 ≤ s.rhooks.length) (h : Hook) :
    addReadHook h s = s :=
  if_neg (by simpa [betweenCycles, imp_iff_not_or] using hno)

theorem addWriteHook_refused {s : State} (hno : s.core ≠ 0 ∨ 32 ≤ s.whooks.length) (h : Hook) :
    addWriteHook h s = s :=
  if_neg (by simpa [betweenCycles, imp_iff_not_or] using hno)

/-- Settles O37: each move at each time by its own lemma; a step and a cycle of a running machine answer the end of
a turn, after which no image can be loaded. -/
theorem hostMovesRule : Obligations.HostMovesRule := by
  intro s h image
  refine ⟨fun hcore => ?between, fun hcore => ?within, fun hcore hload => ?load,
    fun hload => loadImage_of_imageLoadable_false hload image, fun again => loadImage_loadImage again image s,
    fun hrun t ht => ?after⟩
  case between =>
    exact ⟨fun hroom => addReadHook_of_room hcore hroom h, fun hfull => addReadHook_refused (.inr hfull) h,
      fun hroom => addWriteHook_of_room hcore hroom h, fun hfull => addWriteHook_refused (.inr hfull) h,
      fun i a => ⟨inspect_between hcore _, inspect_between hcore _, inspect_between hcore _, inspect_between hcore _,
        inspect_between hcore _, inspect_between hcore _⟩⟩
  case within =>
    exact ⟨addReadHook_refused (.inl hcore) h, addWriteHook_refused (.inl hcore) h,
      loadImage_of_not_loadable (fun hload => hcore hload.1) image, runCycle_within hcore,
      fun i a => ⟨inspect_within hcore _, inspect_within hcore _, inspect_within hcore _, inspect_within hcore _,
        inspect_within hcore _, inspect_within hcore _⟩⟩
  case load =>
    rw [loadImage_of_loadable hcore hload image]
    exact ⟨cellAt_storeImage image s, rfl⟩
  case after =>
    obtain ⟨u, rfl⟩ : ∃ u, t = endTurn u := ht.elim (step_running_cases hrun) (runCycle_running_cases hrun)
    exact ⟨endTurn_imageLoadable u, loadImage_of_imageLoadable_false (endTurn_imageLoadable u) image⟩

end Sys2Proof.Machine
end

section
/-! SUPPORT. Proofs for 20_memory.md, the two memory primitives: `MemRead` behind a read hook (R37) and `MemWrite` with
its hooks (R38), each case said once. -/

namespace Sys2Proof.Machine

/-! ### The read primitive behind a hook -/

/-- The first hook in the order of registration is the one the search stops at. -/
theorem firstReadHook_of_firstCovering {s : State} {a k : Nat} {h : Hook} (hc : FirstCovering s a k h) :
    firstReadHook s a = some (h, k) := by
  obtain ⟨hk, hcovers, hfirst⟩ := hc
  obtain ⟨hlt, hget⟩ := List.getElem?_eq_some_iff.mp hk
  refine List.find?_eq_some_iff_getElem.mpr ⟨decide_eq_true hcovers, k, by simpa using hlt, by simp [hget], ?_⟩
  intro j hj
  have hmiss := hfirst j hj s.rhooks[j] (List.getElem?_eq_getElem (by omega))
  simp [covers, hmiss]

theorem memReadWord_of_firstCovering {s : State} {a k : Nat} {h : Hook} (hc : FirstCovering s a k h) :
    memReadWord s a = deviceAnswerAt s h a := by
  simp only [memReadWord, firstReadHook_of_firstCovering hc]

theorem memReadEffect_of_firstCovering {s : State} {a k : Nat} {h : Hook} (hc : FirstCovering s a k h) :
    memReadEffect a s = { s with answers := s.answers.tail, draws := s.draws + 1,
                                 events := s.events ++ [.readCall k a (deviceAnswerAt s h a)] } := by
  simp only [memReadEffect, firstReadHook_of_firstCovering hc]

/-- Only the devices can change in a read. -/
theorem memReadEffect_frame (a : Nat) (s : State) :
    memReadEffect a s = { s with answers := (memReadEffect a s).answers, draws := (memReadEffect a s).draws,
                                 events := (memReadEffect a s).events } := by
  unfold memReadEffect
  split <;> rfl

/-- Settles O34: the search finds the first hook that covers the address, or none does. -/
theorem memReadRule : Obligations.MemReadRule := by
  intro s a
  refine ⟨fun k h hc => ⟨memReadWord_of_firstCovering hc, memReadEffect_of_firstCovering hc⟩, fun hn ha => ?inside,
    fun hn ha => ?outside, fun hn => memReadEffect_of_notHooked hn, memReadEffect_mem s a⟩
  case inside => rw [memReadWord_of_notHooked hn, if_pos ha]
  case outside => rw [memReadWord_of_notHooked hn, if_neg (Nat.not_lt.mpr ha)]

/-! ### The write primitive -/

/-- The calls of a write of `v` to `a`, in the order of registration (R38, R40). -/
def writeCalls (whooks : List Hook) (a : Nat) (v : Word) : List DeviceEvent :=
  whooks.zipIdx.filterMap fun p =>
    if p.1.base ≤ a ∧ a ≤ p.1.base + p.1.length then some (.writeCall p.2 v (a - p.1.base)) else none

theorem map_matchingWriteHooks (s : State) (a : Nat) (v : Word) :
    (matchingWriteHooks s a).map (fun p => .writeCall p.2 v (a - p.1.base)) = writeCalls s.whooks a v := by
  simp only [matchingWriteHooks, writeCalls, ← List.filterMap_eq_map', List.filterMap_filter, covers,
    decide_eq_true_eq]

theorem memWrite_of_hooked {s : State} {a : Nat} (h : ¬NotWriteHooked s a) (v : Word) :
    memWrite a v s = { s with events := s.events ++ writeCalls s.whooks a v } := by
  unfold memWrite
  split
  · next hnone => exact absurd (matchingWriteHooks_eq_nil.mp hnone) h
  · next hits => rw [← hits, map_matchingWriteHooks]

theorem memWrite_of_outside {s : State} {a : Nat} (h : NotWriteHooked s a) (ha : memSize s.params ≤ a) (v : Word) :
    memWrite a v s = s := by
  rw [memWrite_of_notHooked h, if_neg (Nat.not_lt.mpr ha)]

theorem memWrite_of_inside {s : State} {a : Nat} (h : NotWriteHooked s a) (ha : a < memSize s.params) (v : Word) :
    memWrite a v s = { s with mem := cellSet s.mem a (normalize v) } := by
  rw [memWrite_of_notHooked h, if_pos ha]

/-- Storage after a write that reaches it, at the written address and at every other. -/
theorem cellAt_memWrite {s : State} {a : Nat} (hwf : Memory.wf s.mem) (h : NotWriteHooked s a)
    (ha : a < memSize s.params) (v : Word) (b : Nat) :
    cellAt (memWrite a v s).mem b = if b = a then normalize v else cellAt s.mem b := by
  rw [memWrite_of_inside h ha, cellAt_cellSet hwf]

/-- Settles O35: hooked, the matching hooks in the order of their list; else in range one cell, or nothing. -/
theorem memWriteRule : Obligations.MemWriteRule := by
  intro s a v
  refine ⟨fun h => memWrite_of_hooked h v, fun h ha => ⟨?frame, fun hwf b => cellAt_memWrite hwf h ha v b⟩,
    fun h ha => memWrite_of_outside h ha v⟩
  case frame => rw [memWrite_of_inside h ha]

end Sys2Proof.Machine
end

section
/-! SUPPORT. Proofs for 20_memory.md, a load's and a store's whole turn (47_load_store.md, 40_cycle_engine.md R77):
under `everyTurn` the access happens in the turn itself, and the next turn sees it (R42, R44). -/

namespace Sys2Proof.Machine

/-! ### The turn of an access -/

/-- What is left of a load's or a store's turn once its access is performed: the slot is idle, `pc` advanced and the
turn passed on. -/
def passTurn (s : State) : State :=
  { s with slot := .idle, pc := s.pc + 1, core := if cycleEnds s then 0 else s.core + 1, imageLoadable := false }

theorem exec_store (moi : Bool) (rd rs : Reg) (sec : Operand) (s : State) :
    exec (.store moi rd rs sec) s = .next (advance (setSlot (.write (effectiveAddress s rs sec) rd) s)) := rfl

/-- A read depends on neither the slot nor `pc`. -/
theorem memReadEffect_armed (a : Nat) (p : Slot) (s : State) :
    memReadEffect a (advance (setSlot p s)) = advance (setSlot p (memReadEffect a s)) := by
  have hfirst : firstReadHook (advance (setSlot p s)) a = firstReadHook s a := rfl
  unfold memReadEffect
  rw [hfirst]
  split <;> rfl

/-- A write depends on neither the slot nor `pc`. -/
theorem memWrite_armed (a : Nat) (v : Word) (p : Slot) (s : State) :
    memWrite a v (advance (setSlot p s)) = advance (setSlot p (memWrite a v s)) := by
  have hmatching : matchingWriteHooks (advance (setSlot p s)) a = matchingWriteHooks s a := rfl
  unfold memWrite
  rw [hmatching, advance_params, setSlot_params]
  split
  · split <;> rfl
  · rfl

theorem cycleEnds_congr {s t : State} (hh : t.halted = s.halted) (hp : t.params = s.params) (hc : t.core = s.core) :
    cycleEnds t = cycleEnds s := by
  rw [cycleEnds, cycleEnds, hh, hp, hc]

section EveryTurn

variable {s : State} (hf : s.params.readings.flushPoints = .everyTurn)
include hf

theorem endTurn_read (a : Half) (r : Reg) :
    endTurn (advance (setSlot (.read a r) s)) =
      passTurn (writeReg r.val (memReadWord s a.toNat) (memReadEffect a.toNat s)) := by
  have hends : cycleEnds (writeReg r.val (memReadWord s a.toNat) (memReadEffect a.toNat s)) = cycleEnds s :=
    cycleEnds_congr (by simp) (by simp) (by simp)
  rw [endTurn, flushAfterTurn_of_everyTurn (s := advance (setSlot (.read a r) s)) hf, flush_of_read rfl,
    memReadEffect_armed, passTurn, hends, writeReg_core, memReadEffect_core]
  rfl

theorem endTurn_write (a : Half) (r : Reg) :
    endTurn (advance (setSlot (.write a r) s)) = passTurn (memWrite a.toNat (readReg s r.val) s) := by
  have hends : cycleEnds (memWrite a.toNat (readReg s r.val) s) = cycleEnds s :=
    cycleEnds_congr (by simp) (by simp) (by simp)
  rw [endTurn, flushAfterTurn_of_everyTurn (s := advance (setSlot (.write a r) s)) hf, flush_of_write rfl,
    memWrite_armed, passTurn, hends, memWrite_core]
  rfl

end EveryTurn

/-- A load's step: its read follows its own fetch. -/
theorem step_of_load {s : State} {moi : Bool} {rd rs : Reg} {sec : Operand} (hready : Ready s)
    (hf : s.params.readings.flushPoints = .everyTurn) (hload : decode (nextWord s) = .load moi rd rs sec) :
    step s = .next (passTurn (writeReg rd.val
      (memReadWord (afterFetch (wrapPc s)) (effectiveAddress s rs sec).toNat)
      (memReadEffect (effectiveAddress s rs sec).toNat (afterFetch (wrapPc s))))) := by
  have haddr := effectiveAddress_congr (s := s) (t := afterFetch (wrapPc s)) (afterFetch_regs _) rs sec
  rw [step_of_ready hready, hload, exec_load, mapNext_next, endTurn_read (by simpa using hf), haddr]

/-- A store's step: the data is the register at the fetch (47_load_store.md R162). -/
theorem step_of_store {s : State} {moi : Bool} {rd rs : Reg} {sec : Operand} (hready : Ready s)
    (hf : s.params.readings.flushPoints = .everyTurn) (hstore : decode (nextWord s) = .store moi rd rs sec) :
    step s = .next (passTurn
      (memWrite (effectiveAddress s rs sec).toNat (readReg s rd.val) (afterFetch (wrapPc s)))) := by
  have haddr := effectiveAddress_congr (s := s) (t := afterFetch (wrapPc s)) (afterFetch_regs _) rs sec
  have hdata := readReg_congr (s := s) (t := afterFetch (wrapPc s)) (afterFetch_regs _) rd.val
  rw [step_of_ready hready, hstore, exec_store, mapNext_next, endTurn_write (by simpa using hf), haddr, hdata]

/-- A fetch from storage leaves its trace entry and nothing else. -/
theorem afterFetch_of_notHooked {s : State} (h : NotReadHooked s s.pc.toNat) :
    afterFetch s = traceFetch (fetchWord s) s := by
  rw [afterFetch, memReadEffect_of_notHooked h]

/-! ### What the access of a turn changes -/

theorem destHolds_passTurn_writeReg (rd : Reg) (v : Word) (s : State) :
    DestHolds rd (passTurn (writeReg rd.val v s)) v :=
  (readReg_writeReg_reg s rd rd.val v).trans (if_pos rfl)

theorem destHolds_normalize {rd : Reg} {t : State} {v : Word} : DestHolds rd t (normalize v) ↔ DestHolds rd t v := by
  rw [DestHolds, DestHolds, normalize_idem]

/-- Settles O49: after a fetch from storage the write finds the state of the turn's start, but for `pc` and the trace,
so the three cases of R38 are those of the turn. -/
theorem storeTurnWritesItsCell : Obligations.StoreTurnWritesItsCell := by
  intro s moi rd rs sec hready hwf hf hfetch hstore
  have hstep := step_of_store hready hf hstore
  rw [afterFetch_of_notHooked (s := wrapPc s) hfetch] at hstep
  obtain ⟨hhooked, hinside, houtside⟩ := memWriteRule (traceFetch (fetchWord (wrapPc s)) (wrapPc s))
    (effectiveAddress s rs sec).toNat (readReg s rd.val)
  refine ⟨_, hstep, fun hn ha => ⟨?stored, ?quiet⟩, fun hn ha => ?outside, fun hh => ?hooked, ?frame⟩
  case stored => exact (hinside hn ha).2 hwf
  case quiet =>
    rw [(hinside hn ha).1]
    rfl
  case outside =>
    rw [houtside hn ha]
    exact ⟨fun _ => rfl, rfl⟩
  case hooked =>
    rw [hhooked hh]
    exact ⟨fun _ => rfl, rfl⟩
  case frame =>
    rw [memWrite_frame, passTurn, ← hready.slot]
    rfl

/-- Settles O50: after a fetch from storage the read finds the state of the turn's start, but for `pc` and the trace. -/
theorem loadTurnLoadsItsWord : Obligations.LoadTurnLoadsItsWord := by
  intro s moi rd rs sec hready hf hfetch hload
  have hstep := step_of_load hready hf hload
  rw [afterFetch_of_notHooked (s := wrapPc s) hfetch] at hstep
  obtain ⟨hcovered, _, _, hquiet, hmem⟩ := memReadRule (traceFetch (fetchWord (wrapPc s)) (wrapPc s))
    (effectiveAddress s rs sec).toNat
  refine ⟨_, hstep, destHolds_passTurn_writeReg rd _ _, fun j hj => ?others, fun b => ?storage, fun hn => ?quiet,
    fun k h hc => ?called, ?frame⟩
  case others => exact (readReg_writeReg_ne _ hj _).trans (readReg_memReadEffect _ _ _)
  case storage => exact congrArg (cellAt · b) hmem
  case quiet =>
    rw [hquiet hn]
    exact ⟨rfl, rfl, rfl⟩
  case called =>
    rw [(hcovered k h hc).2, memReadWord_of_firstCovering hc]
    rfl
  case frame =>
    rw [memReadEffect_frame, passTurn, ← hready.slot]
    rfl

/-! ### The store seen by the next turn -/

/-- Of an address under no hook a fetch changes nothing that a read sees. -/
theorem memReadWord_afterFetch {s : State} {a : Nat} (h : NotReadHooked s a) :
    memReadWord (afterFetch s) a = memReadWord s a := by
  have hafter : NotReadHooked (afterFetch s) a := by rwa [NotReadHooked, afterFetch_rhooks]
  rw [memReadWord_of_notHooked hafter, memReadWord_of_notHooked h, afterFetch_params, afterFetch_mem]

/-- Read after write of an address under no hook. -/
theorem memReadWord_memWrite_same {s : State} {a : Nat} (hwf : Memory.wf s.mem) (hw : NotWriteHooked s a)
    (hr : NotReadHooked s a) (ha : a < memSize s.params) (v : Word) :
    memReadWord (memWrite a v s) a = normalize v := by
  have hafter : NotReadHooked (memWrite a v s) a := by rwa [NotReadHooked, memWrite_rhooks]
  rw [memReadWord_of_notHooked hafter, memWrite_params, if_pos ha, cellAt_memWrite_same hwf hw ha, normalize_idem]

/-- With a flush after every turn, a machine that still runs is ready for its next turn. -/
theorem ready_of_step {s t : State} (hf : s.params.readings.flushPoints = .everyTurn) (hstep : step s = .next t)
    (hrun : t.halted = false) : Ready t := by
  obtain ⟨hconfig, ⟨hhalted, rfl⟩ | ⟨_, u, hturn, rfl⟩⟩ := step_cases hstep
  · exact absurd hrun (by simp [hhalted])
  · have hframe := takeTurn_dispatchFrame hturn
    have hparams : u.params = s.params := by simpa using hframe.params
    have hsame : refusalOf u = refusalOf s := refusalOf_congr hparams (by simpa using hframe.rhooks)
      (by simpa using hframe.whooks) (by simpa using hframe.core)
    exact ⟨endTurn_refusalOf (hsame.trans hconfig), hrun,
      endTurn_slotIdleAtBoundary u (.inl (by rwa [endTurn_params, hparams]))⟩

/-- What a store in range and under no hook leaves for the next turn, wherever its own word was fetched from. -/
theorem step_of_store_read_back {s : State} {moi : Bool} {rd rs : Reg} {sec : Operand} (hready : Ready s)
    (hwf : Memory.wf s.mem) (hf : s.params.readings.flushPoints = .everyTurn)
    (hstore : decode (nextWord s) = .store moi rd rs sec)
    (hw : NotWriteHooked s (effectiveAddress s rs sec).toNat)
    (hr : NotReadHooked s (effectiveAddress s rs sec).toNat)
    (ha : (effectiveAddress s rs sec).toNat < memSize s.params) :
    ∃ t, step s = .next t ∧ Ready t ∧ t.params = s.params ∧ t.rhooks = s.rhooks ∧ t.pc = nextAddress s + 1 ∧
      memReadWord t (effectiveAddress s rs sec).toNat = normalize (readReg s rd.val) := by
  have hstep := step_of_store hready hf hstore
  refine ⟨_, hstep, ready_of_step hf hstep ?running, ?params, ?rhooks, ?pc, ?read⟩
  case running => exact (memWrite_halted _ _ _).trans ((afterFetch_halted _).trans hready.running)
  case params => exact (memWrite_params _ _ _).trans (afterFetch_params _)
  case rhooks => exact (memWrite_rhooks _ _ _).trans (afterFetch_rhooks _)
  case pc => exact congrArg (· + 1) ((memWrite_pc _ _ _).trans (afterFetch_pc _))
  case read =>
    apply memReadWord_memWrite_same
    · rwa [afterFetch_mem]
    · rwa [NotWriteHooked, afterFetch_whooks]
    · rwa [NotReadHooked, afterFetch_rhooks]
    · rwa [afterFetch_params]

theorem nextAddress_of_pc_lt {s : State} (h : s.pc.toNat < memSize s.params) : nextAddress s = s.pc :=
  if_neg (Nat.not_le.mpr h)

/-- Settles O51: `pc` does not wrap, and the next fetch is a read of the cell just written. -/
theorem nextFetchSeesTheStore : Obligations.NextFetchSeesTheStore := by
  intro s moi rd rs sec hready hwf hf hstore hw hr ha hnext
  obtain ⟨t, hstep, _, hparams, _, hpc, hread⟩ := step_of_store_read_back hready hwf hf hstore hw hr ha
  have hcell : t.pc.toNat = (effectiveAddress s rs sec).toNat := by
    have hone : (1 : Word).toNat = 1 := rfl
    have hlt := (effectiveAddress s rs sec).isLt
    rw [hpc, hnext, BitVec.toNat_add, hone]
    exact Nat.mod_eq_of_lt (by omega)
  have haddr : nextAddress t = t.pc := nextAddress_of_pc_lt (by rwa [hcell, hparams])
  refine ⟨t, hstep, haddr.trans hpc, ?_⟩
  calc nextWord t = memReadWord t (nextAddress t).toNat := rfl
    _ = normalize (readReg s rd.val) := by rw [haddr, hcell, hread]

/-- Settles O52: the load's fetch, hooked or not, leaves the cell just written as it is. -/
theorem loadAfterStoreReturnsTheStoredWord : Obligations.LoadAfterStoreReturnsTheStoredWord := by
  intro s moi rd rs sec hready hwf hf hstore hw hr ha
  obtain ⟨t, hstep, hreadyt, hparams, hrhooks, _, hread⟩ := step_of_store_read_back hready hwf hf hstore hw hr ha
  refine ⟨t, hstep, fun moi' rd' rs' sec' hload haddr => ⟨_, step_of_load hreadyt (hparams ▸ hf) hload, ?_⟩⟩
  have hunhooked : NotReadHooked t (effectiveAddress s rs sec).toNat := by rwa [NotReadHooked, hrhooks]
  have hword : memReadWord (afterFetch (wrapPc t)) (effectiveAddress t rs' sec').toNat =
      normalize (readReg s rd.val) := by
    rw [haddr, memReadWord_afterFetch (s := wrapPc t) hunhooked]
    exact hread
  rw [hword, ← destHolds_normalize]
  exact destHolds_passTurn_writeReg rd' _ _

end Sys2Proof.Machine
end

section
/-! SUPPORT. Proofs for 30_encoding.md, the slices of a word (R50 to R55) and the encoder of R64: each slice of an
encoded word is the field it was made from, and a word is the encoding of its slices. -/

namespace Sys2Proof.Laws

/-! ### The slices of a word as naturals -/

theorem bits_lt (w : Word) (hi lo : Nat) : bits w hi lo < 2 ^ (hi + 1 - lo) := Nat.mod_lt _ (Nat.two_pow_pos _)

theorem boolToNat_injective : Function.Injective Bool.toNat := Function.LeftInverse.injective Bool.ofNat_toNat

theorem toNat_decide_eq_one {n : Nat} (h : n < 2) : (decide (n = 1)).toNat = n := by
  interval_cases n <;> rfl

theorem moiOf_toNat (w : Word) : (moiOf w).toNat = bits w 31 31 := toNat_decide_eq_one (bits_lt w 31 31)

theorem soiiOf_toNat (w : Word) : (soiiOf w).toNat = bits w 30 30 := toNat_decide_eq_one (bits_lt w 30 30)

theorem syncOf_toNat (w : Word) : (syncOf w).toNat = bits w 24 24 := toNat_decide_eq_one (bits_lt w 24 24)

theorem rdOf_val (w : Word) : (rdOf w).val = bits w 29 25 := Nat.mod_eq_of_lt (bits_lt w 29 25)

theorem rsOf_val (w : Word) : (rsOf w).val = bits w 24 20 := Nat.mod_eq_of_lt (bits_lt w 24 20)

theorem condOf_val (w : Word) : (condOf w).val = bits w 23 20 := Nat.mod_eq_of_lt (bits_lt w 23 20)

theorem opOf_lt (w : Word) : opOf w < 16 := bits_lt w 19 16

theorem fieldOf_toNat (w : Word) : (fieldOf w).toNat = bits w 15 0 :=
  (BitVec.toNat_ofNat _ _).trans (Nat.mod_eq_of_lt (bits_lt w 15 0))

/-- `sync` and `cond` as the register index that has their bits (R54). -/
def syncCondReg (sync : Bool) (cond : Cond) : Reg :=
  ⟨sync.toNat * 16 + cond.val, by
    have hsync := Bool.toNat_le sync
    omega⟩

theorem syncCondReg_inj {sync sync' : Bool} {cond cond' : Cond}
    (h : syncCondReg sync cond = syncCondReg sync' cond') : sync = sync' ∧ cond = cond' := by
  have hval := congrArg Fin.val h
  simp only [syncCondReg] at hval
  have hsync := Bool.toNat_le sync
  have hsync' := Bool.toNat_le sync'
  exact ⟨boolToNat_injective (by omega), Fin.ext (by omega)⟩

theorem rsOf_eq_syncCondReg (w : Word) : rsOf w = syncCondReg (syncOf w) (condOf w) := by
  apply Fin.ext
  change (rsOf w).val = (syncOf w).toNat * 16 + (condOf w).val
  rw [rsOf_val, syncOf_toNat, condOf_val]
  simp only [bits]
  omega

/-- Bit 15, the direction of a shift (R58), is the top bit of the field. -/
theorem bits15_eq_fieldOf_div (w : Word) : bits w 15 15 = (fieldOf w).toNat / 32768 := by
  rw [fieldOf_toNat]
  simp only [bits]
  omega

@[simp] theorem soiiBit_operandOf (w : Word) : soiiBit (operandOf w) = soiiOf w := by
  unfold operandOf
  cases soiiOf w <;> rfl

@[simp] theorem field_operandOf (w : Word) : (operandOf w).field = fieldOf w := by
  unfold operandOf
  cases soiiOf w <;> rfl

/-! ### The slices of an encoded word -/

section Fields

variable (moi soii : Bool) {rd rs op : Nat} (field : Half) (hrd : rd < 32) (hrs : rs < 32) (hop : op < 16)
include hrd hrs hop

/-- The weighted sum of R64 taken apart, for all slices at once but `op` (`opOf_encodeFields`). -/
theorem bits_encodeFields :
    bits (encodeFields moi soii rd rs op field) 31 31 = moi.toNat ∧
    bits (encodeFields moi soii rd rs op field) 30 30 = soii.toNat ∧
    bits (encodeFields moi soii rd rs op field) 29 25 = rd ∧
    bits (encodeFields moi soii rd rs op field) 24 20 = rs ∧
    bits (encodeFields moi soii rd rs op field) 15 0 = field.toNat := by
  have hmoi := Bool.toNat_le moi
  have hsoii := Bool.toNat_le soii
  have hfield := field.isLt
  simp only [bits, encodeFields_toNat _ _ _ _ _ _ hrd hrs hop]
  omega

theorem moiOf_encodeFields : moiOf (encodeFields moi soii rd rs op field) = moi := by
  obtain ⟨hbits, -⟩ := bits_encodeFields moi soii field hrd hrs hop
  exact boolToNat_injective ((moiOf_toNat _).trans hbits)

theorem soiiOf_encodeFields : soiiOf (encodeFields moi soii rd rs op field) = soii := by
  obtain ⟨-, hbits, -⟩ := bits_encodeFields moi soii field hrd hrs hop
  exact boolToNat_injective ((soiiOf_toNat _).trans hbits)

theorem rdOf_encodeFields : (rdOf (encodeFields moi soii rd rs op field)).val = rd := by
  obtain ⟨-, -, hbits, -⟩ := bits_encodeFields moi soii field hrd hrs hop
  exact (rdOf_val _).trans hbits

theorem rsOf_encodeFields : (rsOf (encodeFields moi soii rd rs op field)).val = rs := by
  obtain ⟨-, -, -, hbits, -⟩ := bits_encodeFields moi soii field hrd hrs hop
  exact (rsOf_val _).trans hbits

theorem fieldOf_encodeFields : fieldOf (encodeFields moi soii rd rs op field) = field := by
  obtain ⟨-, -, -, -, hbits⟩ := bits_encodeFields moi soii field hrd hrs hop
  exact BitVec.eq_of_toNat_eq ((fieldOf_toNat _).trans hbits)

end Fields

/-- Settles O5: the sum does not overflow 32 bits, and each slice is read off it. -/
theorem encodedFieldsAreTheLayout : Obligations.EncodedFieldsAreTheLayout := by
  intro moi soii rd rs op field hrd hrs hop
  exact ⟨encodeFields_toNat moi soii rd rs op field hrd hrs hop, moiOf_encodeFields moi soii field hrd hrs hop,
    soiiOf_encodeFields moi soii field hrd hrs hop, rdOf_encodeFields moi soii field hrd hrs hop,
    rsOf_encodeFields moi soii field hrd hrs hop, opOf_encodeFields moi soii rd rs op field hrd hrs hop,
    fieldOf_encodeFields moi soii field hrd hrs hop⟩

/-! ### The slices of an encoded instruction -/

section Instruction

variable {op : Nat} (hop : op < 16) (moi : Bool) (rd rs : Reg) (sec : Operand)
include hop

@[simp] theorem moiOf_encodeWith : moiOf (encodeWith op moi rd rs sec) = moi :=
  moiOf_encodeFields moi _ _ rd.isLt rs.isLt hop

@[simp] theorem rdOf_encodeWith : rdOf (encodeWith op moi rd rs sec) = rd :=
  Fin.ext (rdOf_encodeFields moi _ _ rd.isLt rs.isLt hop)

@[simp] theorem rsOf_encodeWith : rsOf (encodeWith op moi rd rs sec) = rs :=
  Fin.ext (rsOf_encodeFields moi _ _ rd.isLt rs.isLt hop)

@[simp] theorem fieldOf_encodeWith : fieldOf (encodeWith op moi rd rs sec) = sec.field :=
  fieldOf_encodeFields moi _ _ rd.isLt rs.isLt hop

@[simp] theorem operandOf_encodeWith : operandOf (encodeWith op moi rd rs sec) = sec := by
  have hsoii : soiiOf (encodeWith op moi rd rs sec) = soiiBit sec :=
    soiiOf_encodeFields moi _ _ rd.isLt rs.isLt hop
  rw [operandOf, hsoii, fieldOf_encodeWith hop]
  cases sec <;> rfl

@[simp] theorem bits15_encodeWith : bits (encodeWith op moi rd rs sec) 15 15 = sec.field.toNat / 32768 := by
  rw [bits15_eq_fieldOf_div, fieldOf_encodeWith hop]

theorem syncOf_condOf_encodeWith (sync : Bool) (cond : Cond) :
    syncOf (encodeWith op moi rd (syncCondReg sync cond) sec) = sync ∧
    condOf (encodeWith op moi rd (syncCondReg sync cond) sec) = cond :=
  syncCondReg_inj ((rsOf_eq_syncCondReg _).symm.trans (rsOf_encodeWith hop moi rd _ sec))

end Instruction

/-! ### The encoding of the slices -/

/-- The slices cover the word: their weighted sum is the word. -/
theorem encodeFields_slices (w : Word) :
    encodeFields (moiOf w) (soiiOf w) (rdOf w).val (rsOf w).val (opOf w) (fieldOf w) = w := by
  have hlt := w.isLt
  rw [← BitVec.toNat_inj, encodeFields_toNat _ _ _ _ _ _ (rdOf w).isLt (rsOf w).isLt (opOf_lt w), moiOf_toNat,
    soiiOf_toNat, rdOf_val, rsOf_val, fieldOf_toNat]
  simp only [opOf, bits]
  omega

theorem encodeWith_slices {w : Word} {op : Nat} {moi : Bool} (hop : opOf w = op) (hmoi : moiOf w = moi) :
    encodeWith op moi (rdOf w) (rsOf w) (operandOf w) = w := by
  subst hop hmoi
  rw [encodeWith, soiiBit_operandOf, field_operandOf, encodeFields_slices]

end Sys2Proof.Laws
end

section
/-! SUPPORT. Proofs for 30_encoding.md, decoder and encoder as each other's inverse (R57 to R62, R64). -/

namespace Sys2Proof.Laws

theorem encode_jump (moi : Bool) (rd : Reg) (sync : Bool) (cond : Cond) (sec : Operand) :
    encode (.jump moi rd sync cond sec) = encodeWith 1 moi rd (syncCondReg sync cond) sec := rfl

/-- Settles O2: the opcode selects the row, and every slice is the field encoded; the rows that share an opcode are
told apart by bit 15 (shl, shr) or by `moi` (the multiplies). -/
theorem decodeInvertsEncode : Obligations.DecodeInvertsEncode := by
  intro i hwf
  cases i with
  | jump moi rd sync cond sec =>
    obtain ⟨hsync, hcond⟩ := syncOf_condOf_encodeWith (op := 1) (by decide) moi rd sec sync cond
    simp [encode_jump, decode, opOf_encodeWith, hsync, hcond]
  | shl moi rd rs sec =>
    have hleft : sec.field.toNat < 32768 := of_decide_eq_true hwf
    simp [encode, decode, opOf_encodeWith, hleft]
  | shr moi rd rs sec =>
    have hright : 32768 ≤ sec.field.toNat := of_decide_eq_true hwf
    simp [encode, decode, opOf_encodeWith, hright]
  | _ => simp [encode, decode, opOf_encodeWith]

theorem encode_decode (w : Word) : encode (decode w) = w := by
  simp only [decode]
  split
  case h_2 hop =>
    rw [encode_jump, ← rsOf_eq_syncCondReg]
    exact encodeWith_slices hop rfl
  case h_12 hop => split <;> exact encodeWith_slices hop rfl
  case h_15 hop =>
    split
    · next hmoi => exact encodeWith_slices hop hmoi
    · next hmoi => exact encodeWith_slices hop (Bool.eq_false_of_not_eq_true hmoi)
  case h_16 =>
    have hop : opOf w = 15 := by grind [opOf_lt]
    split
    · next hmoi => exact encodeWith_slices hop hmoi
    · next hmoi => exact encodeWith_slices hop (Bool.eq_false_of_not_eq_true hmoi)
  all_goals exact encodeWith_slices ‹_› rfl

theorem wellFormed_decode (w : Word) : (decode w).wellFormed = true := by
  have hfield := bits15_eq_fieldOf_div w
  simp only [decode]
  split
  case h_12 => split <;> exact decide_eq_true (by rw [field_operandOf]; omega)
  case h_15 | h_16 => split <;> rfl
  all_goals rfl

/-- Settles O3: the row of the decoder fixes the opcode, and the encoder puts the slices back. -/
theorem encodeInvertsDecode : Obligations.EncodeInvertsDecode := fun w => ⟨wellFormed_decode w, encode_decode w⟩

end Sys2Proof.Laws
end

section
/-! SUPPORT. Proofs for 30_encoding.md, the match and mask table of R64 against the decoder (D1, D3). -/

namespace Sys2Proof.Laws

/-- The bits that any mask of the table looks at: 31, 19 to 16 and 15. -/
def rowMask : Word := 0x800F8000

/-- The word with these bits given and every other bit clear. -/
def rowKey (moi right : Bool) (op : Nat) : Word := encodeFields moi false 0 0 op (if right then 0x8000 else 0)

/-- The table and the decoder agree on every setting of these bits. -/
theorem rowKey_matches_iff : ∀ (moi right : Bool) (op : Fin 16), ∀ r ∈ opcodeRows,
    (rowKey moi right op &&& r.mask = r.pattern ↔ r.mnemonic = mnemonicOf (decode (rowKey moi right op))) := by
  decide

theorem rowMask_and_mask : ∀ r ∈ opcodeRows, rowMask &&& r.mask = r.mask := by decide

/-! ### A word under a mask -/

theorem bits_and (v w : Word) (hi lo : Nat) : bits (v &&& w) hi lo = bits v hi lo &&& bits w hi lo := by
  simp only [bits, BitVec.toNat_and, ← Nat.shiftRight_eq_div_pow, Nat.shiftRight_and_distrib, Nat.and_mod_two_pow]

/-- A slice under a mask that covers it. -/
theorem bits_and_of_ones {m : Word} {hi lo : Nat} (h : bits m hi lo = 2 ^ (hi + 1 - lo) - 1) (w : Word) :
    bits (w &&& m) hi lo = bits w hi lo := by
  rw [bits_and, h, Nat.and_two_pow_sub_one_eq_mod, Nat.mod_eq_of_lt (bits_lt w hi lo)]

/-- A slice under a mask that clears it. -/
theorem bits_and_of_zero {m : Word} {hi lo : Nat} (h : bits m hi lo = 0) (w : Word) : bits (w &&& m) hi lo = 0 := by
  rw [bits_and, h, Nat.and_zero]

/-- Bit 15, which selects right in opcode 11 (R58). -/
def rightOf (w : Word) : Bool := decide (bits w 15 15 = 1)

theorem rightOf_toNat (w : Word) : (rightOf w).toNat = bits w 15 15 := toNat_decide_eq_one (bits_lt w 15 15)

theorem rowKey_toNat (moi right : Bool) {op : Nat} (hop : op < 16) :
    (rowKey moi right op).toNat = moi.toNat * 2 ^ 31 + op * 2 ^ 16 + right.toNat * 2 ^ 15 := by
  rw [rowKey, encodeFields_toNat _ _ _ _ _ _ (by decide) (by decide) hop]
  cases right <;> simp

theorem and_rowMask (w : Word) : w &&& rowMask = rowKey (moiOf w) (rightOf w) (opOf w) := by
  have h31 : bits (w &&& rowMask) 31 31 = (moiOf w).toNat := (bits_and_of_ones rfl w).trans (moiOf_toNat w).symm
  have h20 : bits (w &&& rowMask) 30 20 = 0 := bits_and_of_zero rfl w
  have h16 : bits (w &&& rowMask) 19 16 = opOf w := bits_and_of_ones rfl w
  have h15 : bits (w &&& rowMask) 15 15 = (rightOf w).toNat := (bits_and_of_ones rfl w).trans (rightOf_toNat w).symm
  have h0 : bits (w &&& rowMask) 14 0 = 0 := bits_and_of_zero rfl w
  have hlt := (w &&& rowMask).isLt
  apply BitVec.eq_of_toNat_eq
  rw [rowKey_toNat _ _ (opOf_lt w), ← h31, ← h15, ← h16]
  simp only [bits] at *
  omega

/-! ### The row of a word -/

/-- Which row a word decodes to depends on its opcode, `moi` and bit 15 alone. -/
theorem mnemonicOf_decode_congr {v w : Word} (hop : opOf v = opOf w) (hmoi : moiOf v = moiOf w)
    (hright : bits v 15 15 = bits w 15 15) : mnemonicOf (decode v) = mnemonicOf (decode w) := by
  simp only [decode, hop, hmoi, hright]
  split
  case h_12 | h_15 | h_16 => split <;> rfl
  all_goals rfl

theorem mnemonicOf_decode_and_rowMask (w : Word) : mnemonicOf (decode (w &&& rowMask)) = mnemonicOf (decode w) := by
  apply mnemonicOf_decode_congr
  · exact bits_and_of_ones rfl w
  · rw [moiOf, bits_and_of_ones rfl, moiOf]
  · exact bits_and_of_ones rfl w

/-- Settles O4: neither side changes when the bits outside `rowMask` are cleared, and on the words left
`rowKey_matches_iff` compares the table with the decoder. -/
theorem everyWordMatchesExactlyItsRow : Obligations.EveryWordMatchesExactlyItsRow := by
  intro w r hr
  have hmask : w &&& r.mask = w &&& rowMask &&& r.mask := by rw [BitVec.and_assoc, rowMask_and_mask r hr]
  rw [hmask, ← mnemonicOf_decode_and_rowMask w, and_rowMask]
  exact rowKey_matches_iff (moiOf w) (rightOf w) ⟨opOf w, opOf_lt w⟩ r hr

end Sys2Proof.Laws
end

section
/-! SUPPORT. Proofs for 30_encoding.md, the sample words and the secondary operand (R56). -/

namespace Sys2Proof.Machine

/-- Settles O1: the decoder run on each word. -/
theorem sampleWordsDecode : Obligations.SampleWordsDecode := by
  unfold Obligations.SampleWordsDecode
  decide

theorem secValue_imm (s : State) (f : Half) : secValue s (.imm f) = zext32 f := normalize_zext32 f

theorem secValue_reg (s : State) (f : Half) : secValue s (.reg f) = normalize (readReg s f.toNat) := rfl

/-- Settles O9: a literal passes `normalize`, a register operand is the register read. -/
theorem secondaryOperandRule : Obligations.SecondaryOperandRule := by
  intro s f
  refine ⟨by rw [secValue_imm, zext32_toNat], fun hno => ?_, fun h => ?_⟩
  · rw [secValue_reg, readReg_of_no_register s hno, normalize_zero]
  · have hread : readReg s f.toNat = s.regs[f.toNat - 1]'(by omega) := dif_pos h
    rw [secValue_reg, hread]
    exact ⟨rfl, fun hnorm => hnorm ⟨f.toNat - 1, by omega⟩⟩

end Sys2Proof.Machine
end

section
/-! SUPPORT. Proofs for 30_encoding.md, the words that storage cannot deliver (R63). -/

namespace Sys2Proof.Machine

theorem decode_zero : decode 0 = .move false 0 0 (.reg 0) := by decide

/-- The word 0 writes r0 and requests no flag, so only `pc` advances. -/
theorem exec_move_zero (s : State) : exec (.move false 0 0 (.reg 0)) s = .next (advance s) := by
  have hdiscard (m : Word) : finishMerge false 0 m s = advance s :=
    congrArg advance (writeReg_of_no_register _ (.inl rfl) m)
  exact congrArg Host.Outcome.next (hdiscard _)

theorem flushAfterTurn_of_idle {s : State} (h : s.slot = .idle) : flushAfterTurn s = s := by
  obtain hflush | hsame := flushAfterTurn_cases s
  · rw [hflush, flush_of_idle h]
  · exact hsame

/-- Settles O59: the fetch reads 0, whose move changes `pc` alone, and the idle slot makes every flush do nothing. -/
theorem undeliverableWordsExecuteAsZero : Obligations.UndeliverableWordsExecuteAsZero := by
  intro s hready hpc hhook hbits
  have hwrap : wrapPc s = s := by
    have hsame : (wrapPc s).pc = s.pc := nextAddress_of_pc_lt hpc
    rw [wrapPc_pc] at hsame
    rw [wrapPc, hsame]
  have hword : nextWord s = 0 := by
    rw [nextWord, hwrap, fetchWord, memReadWord_of_notHooked hhook, if_pos hpc]
    exact (normalize_eq_zero_iff _).mpr hbits
  have hstep := step_of_ready hready
  rw [hword, decode_zero, exec_move_zero, hwrap, afterFetch_of_notHooked hhook, mapNext_next, endTurn,
    flushAfterTurn_of_idle (s := advance (traceFetch (fetchWord s) s)) hready.slot] at hstep
  exact ⟨hword, _, hstep, rfl⟩

end Sys2Proof.Machine
end

section
/-! SUPPORT. Proofs for 30_encoding.md, what an instruction changes of registers and flags: the register in bits 29 to
25 (R53) and the flags of 10_state.md R17. -/

namespace Sys2Proof.Machine

/-! ### The destination -/

/-- The register index in the `rd` field of an instruction (R53). -/
def destOf : Instr → Reg
  | .move _ rd _ _ => rd
  | .jump _ rd _ _ _ => rd
  | .load _ rd _ _ => rd
  | .exchange _ rd _ _ => rd
  | .sub _ rd _ _ => rd
  | .sbb _ rd _ _ => rd
  | .add _ rd _ _ => rd
  | .adc _ rd _ _ => rd
  | .xor _ rd _ _ => rd
  | .or _ rd _ _ => rd
  | .store _ rd _ _ => rd
  | .shl _ rd _ _ => rd
  | .shr _ rd _ _ => rd
  | .and _ rd _ _ => rd
  | .halt _ rd _ _ => rd
  | .mul rd _ _ => rd
  | .muls rd _ _ => rd
  | .mulh rd _ _ => rd
  | .mulx rd _ _ => rd

theorem destOf_decode (w : Word) : destOf (decode w) = rdOf w := by
  simp only [decode]
  split
  case h_12 | h_15 | h_16 => split <;> rfl
  all_goals rfl

/-! ### Registers -/

theorem sameRegsExcept_of_regs {s t : State} (h : t.regs = s.regs) (i : Nat) : SameRegsExcept i s t :=
  fun j _ => readReg_congr h j

theorem sameRegsExcept_of_write {s t : State} {i : Nat} {v : Word} (h : t.regs = regsAfterWrite s.regs i v) :
    SameRegsExcept i s t :=
  fun j hj => (readReg_congr (s := writeReg i v s) h j).trans (readReg_writeReg_ne s hj v)

theorem SameRegsExcept.trans {i : Nat} {s t u : State} (hst : SameRegsExcept i s t) (htu : SameRegsExcept i t u) :
    SameRegsExcept i s u :=
  fun j hj => (htu j hj).trans (hst j hj)

theorem finishMul_sameRegsExcept (rd : Reg) (v : Half) (s : State) : SameRegsExcept rd.val s (finishMul rd v s) := by
  cases hcan : canMultiply s.params s.core with
  | true => exact sameRegsExcept_of_write (v := zext32 v) (by simp [finishMul, hcan])
  | false => exact sameRegsExcept_of_regs (by simp [finishMul, hcan]) _

/-- What a jump answers: it passes, it waits for the last core, or it links and redirects (R150). -/
theorem exec_jump_cases (moi : Bool) (rd : Reg) (sync : Bool) (cond : Cond) (sec : Operand) (s : State) :
    exec (.jump moi rd sync cond sec) s = .next (advance s) ∨ exec (.jump moi rd sync cond sec) s = .next s ∨
      exec (.jump moi rd sync cond sec) s = .next (redirect (secValue s sec) (writeReg rd.val (s.pc + 1) s)) := by
  simp only [exec, execJump]
  split
  · split
    · exact .inr (.inl rfl)
    · exact .inr (.inr rfl)
  · exact .inl rfl

theorem exec_sameRegsExcept {i : Instr} {s t : State} (h : exec i s = .next t) :
    SameRegsExcept (destOf i).val s t := by
  cases i with
  | jump moi rd sync cond sec =>
    obtain hc | hc | hc := exec_jump_cases moi rd sync cond sec s
    all_goals obtain rfl := Host.Outcome.next.inj (hc.symm.trans h)
    · exact sameRegsExcept_of_regs rfl _
    · exact sameRegsExcept_of_regs rfl _
    · exact sameRegsExcept_of_write rfl
  | load moi rd rs sec | store moi rd rs sec | halt moi rd rs sec =>
    obtain rfl := Host.Outcome.next.inj h
    exact sameRegsExcept_of_regs rfl _
  | mul rd rs sec | muls rd rs sec | mulh rd rs sec | mulx rd rs sec =>
    obtain rfl := Host.Outcome.next.inj h
    exact finishMul_sameRegsExcept rd _ s
  | _ =>
    obtain rfl := Host.Outcome.next.inj h
    exact sameRegsExcept_of_write rfl

/-! ### Flags -/

theorem finishMul_flags (rd : Reg) (v : Half) (s : State) : (finishMul rd v s).flags = s.flags := by
  unfold finishMul
  split <;> rfl

section Commit

variable (moi : Bool) (u : FlagUpdate) (s : State)

theorem commitFlags_on_request : moi = true ∨ (commitFlags moi u s).flags = s.flags := by
  cases moi with
  | true => exact .inl rfl
  | false => exact .inr rfl

variable {u}

/-- An update that clears Carry and proposes nothing for Overflow: R102, R103. -/
theorem commitFlags_clears_carry (hc : u.c = some false) (hv : u.v = none) :
    if moi then (commitFlags moi u s).flags.c = false ∧ (commitFlags moi u s).flags.v = s.flags.v
    else (commitFlags moi u s).flags = s.flags := by
  cases moi with
  | true => simp [applyUpdate, hc, hv]
  | false => rfl

/-- An update that proposes nothing for Carry and Overflow: R99, R100. -/
theorem commitFlags_keeps_carry (hc : u.c = none) (hv : u.v = none) :
    if moi then (commitFlags moi u s).flags.c = s.flags.c ∧ (commitFlags moi u s).flags.v = s.flags.v
    else (commitFlags moi u s).flags = s.flags := by
  cases moi with
  | true => simp [applyUpdate, hc, hv]
  | false => rfl

end Commit

theorem mergeFlags_c (view : MergeFlagView) (m : Word) : (mergeFlags view m).c = some false := by cases view <;> rfl

theorem mergeFlags_v (view : MergeFlagView) (m : Word) : (mergeFlags view m).v = none := by cases view <;> rfl

/-- Every dispatch writes the flags as the table of 10_state.md R17 allows. -/
theorem exec_flagsAsTabled {i : Instr} {s t : State} (h : exec i s = .next t) :
    FlagsAsTabled i s.flags t.flags := by
  cases i with
  | move moi rd rs sec | exchange moi rd rs sec =>
    obtain rfl := Host.Outcome.next.inj h
    exact commitFlags_clears_carry moi s (mergeFlags_c _ _) (mergeFlags_v _ _)
  | xor moi rd rs sec | or moi rd rs sec | and moi rd rs sec =>
    obtain rfl := Host.Outcome.next.inj h
    exact commitFlags_clears_carry moi (u := logicFlags _) s rfl rfl
  | shl moi rd rs sec | shr moi rd rs sec =>
    obtain rfl := Host.Outcome.next.inj h
    exact commitFlags_keeps_carry moi s (by rw [shiftOut_flags, zeroSign]) (by rw [shiftOut_flags, zeroSign])
  | sub moi rd rs sec | sbb moi rd rs sec | add moi rd rs sec | adc moi rd rs sec =>
    obtain rfl := Host.Outcome.next.inj h
    exact commitFlags_on_request moi _ s
  | mul rd rs sec | muls rd rs sec | mulh rd rs sec | mulx rd rs sec =>
    obtain rfl := Host.Outcome.next.inj h
    exact finishMul_flags rd _ s
  | jump moi rd sync cond sec =>
    obtain hc | hc | hc := exec_jump_cases moi rd sync cond sec s
    all_goals
      obtain rfl := Host.Outcome.next.inj (hc.symm.trans h)
      exact Eq.refl s.flags
  | load moi rd rs sec | store moi rd rs sec | halt moi rd rs sec =>
    obtain rfl := Host.Outcome.next.inj h
    exact Eq.refl s.flags

/-! ### The slot and its flush -/

theorem finishMul_slot (rd : Reg) (v : Half) (s : State) : (finishMul rd v s).slot = s.slot := by
  unfold finishMul
  split <;> rfl

/-- A dispatch leaves the slot, or arms it with its own destination. -/
theorem exec_slot_cases {i : Instr} {s t : State} (h : exec i s = .next t) :
    t.slot = s.slot ∨ ∃ a, t.slot = .read a (destOf i) ∨ t.slot = .write a (destOf i) := by
  cases i with
  | load moi rd rs sec =>
    obtain rfl := Host.Outcome.next.inj h
    exact .inr ⟨_, .inl rfl⟩
  | store moi rd rs sec =>
    obtain rfl := Host.Outcome.next.inj h
    exact .inr ⟨_, .inr rfl⟩
  | mul rd rs sec | muls rd rs sec | mulh rd rs sec | mulx rd rs sec =>
    obtain rfl := Host.Outcome.next.inj h
    exact .inl (finishMul_slot rd _ s)
  | jump moi rd sync cond sec =>
    obtain hc | hc | hc := exec_jump_cases moi rd sync cond sec s
    all_goals
      obtain rfl := Host.Outcome.next.inj (hc.symm.trans h)
      exact .inl rfl
  | _ =>
    obtain rfl := Host.Outcome.next.inj h
    exact .inl rfl

/-- From an idle slot, the flush after a dispatch loads no register but the destination. -/
theorem flush_sameRegsExcept_of_exec {i : Instr} {s t : State} (hidle : s.slot = .idle) (h : exec i s = .next t) :
    SameRegsExcept (destOf i).val t (flush t) := by
  obtain hregs | ⟨a, r, hread, hregs⟩ := flush_regs_cases t
  · exact sameRegsExcept_of_regs hregs _
  · have hdest : r = destOf i := by
      obtain hsame | ⟨b, harmed | harmed⟩ := exec_slot_cases h
      · rw [hread, hidle] at hsame
        contradiction
      · exact (Slot.read.inj (hread.symm.trans harmed)).2
      · rw [hread] at harmed
        contradiction
    rw [← hdest]
    exact sameRegsExcept_of_write hregs

/-! ### The step -/

/-- Settles O47: the turn dispatches the fetched word from the registers, flags and idle slot of the start, and the
flush after it can only load the destination. -/
theorem stepChangesOnlyItsDestination : Obligations.StepChangesOnlyItsDestination := by
  intro s t hidle hevery hrun hstep
  obtain ⟨_, ⟨hhalted, _⟩ | ⟨_, u, hturn, rfl⟩⟩ := step_cases hstep
  · exact absurd hrun (by simp [hhalted])
  · have hbegin : beginTurn s = s := by simp [beginTurn, hidle]
    rw [hbegin] at hturn
    have hexec : exec (decode (nextWord s)) (afterFetch (wrapPc s)) = .next u := hturn
    have hflush : flushAfterTurn u = flush u :=
      flushAfterTurn_of_everyTurn (by simpa [(takeTurn_dispatchFrame hturn).params] using hevery)
    have hidle' : (afterFetch (wrapPc s)).slot = .idle := by simpa using hidle
    constructor
    · rw [← destOf_decode]
      have hfetch := sameRegsExcept_of_regs (s := s) (t := afterFetch (wrapPc s)) (afterFetch_regs _)
      have hend : SameRegsExcept (destOf (decode (nextWord s))).val u (endTurn u) := by
        have hloaded := flush_sameRegsExcept_of_exec hidle' hexec
        rwa [← hflush] at hloaded
      exact (hfetch _).trans ((exec_sameRegsExcept hexec).trans hend)
    · have hflags := exec_flagsAsTabled hexec
      rwa [afterFetch_flags, wrapPc_flags, ← endTurn_flags u] at hflags

end Sys2Proof.Machine
end

section
/-! SUPPORT. Proofs for 40_cycle_engine.md, the multiply gate (R79): a gated multiply only advances `pc`, and no other
instruction looks at the roster but for its length. -/

namespace Sys2Proof.Machine

theorem capability_of_getElem? {p : Params} {k : Nat} {c : Capability} (h : p.caps[k]? = some c) :
    p.caps.getD k .basic = c := by
  rw [List.getD_eq_getElem?_getD, h, Option.getD_some]

/-- Behind the gate nothing is written. -/
theorem finishMul_gated {s : State} (h : canMultiply s.params s.core = false) (rd : Reg) (v : Half) :
    finishMul rd v s = advance s := by
  simp [finishMul, h]

/-- The last core's index depends on the number of cores only. -/
theorem onLastCore_withCaps {s : State} {caps : List Capability} (h : caps.length = s.params.caps.length) :
    onLastCore (withCaps caps s) = onLastCore s := by
  have hcores : ncores (withCaps caps s).params = ncores s.params := h
  rw [onLastCore, hcores]
  rfl

/-- The one instruction besides the multiplies that looks at the roster, for its length (46_control.md R150). -/
theorem exec_jump_withCaps {s : State} {caps : List Capability} (h : caps.length = s.params.caps.length)
    (moi : Bool) (rd : Reg) (sync : Bool) (cond : Cond) (sec : Operand) :
    exec (.jump moi rd sync cond sec) (withCaps caps s) =
      mapNext (withCaps caps) (exec (.jump moi rd sync cond sec) s) := by
  have hflags : (withCaps caps s).flags = s.flags := rfl
  simp only [exec, execJump, onLastCore_withCaps h, hflags]
  split
  · split <;> rfl
  · rfl

/-- Settles O28: the jump by its own lemma; of every other instruction that is no multiply, the meaning reads no
capability at all. -/
theorem multiplyGateRule : Obligations.MultiplyGateRule := by
  refine ⟨fun p k => ⟨fun h => ?basic, fun h => ?standard, fun h => ?multiply⟩,
    fun rd rs sec s hgate => ?gated, fun i s caps hi hlen => ?others⟩
  case basic | standard | multiply => rw [canMultiply, capability_of_getElem? h]
  case gated =>
    have hnext (v : Half) := congrArg (Host.Outcome.next (φ := Fault) (ρ := Refusal)) (finishMul_gated hgate rd v)
    exact ⟨hnext _, hnext _, hnext _, hnext _⟩
  case others =>
    cases i with
    | jump moi rd sync cond sec => exact exec_jump_withCaps hlen moi rd sync cond sec
    | mul rd rs sec | muls rd rs sec | mulh rd rs sec | mulx rd rs sec => contradiction
    | _ => rfl

end Sys2Proof.Machine
end

section
/-! SUPPORT. Proofs for 40_cycle_engine.md, the turn (R71 to R73): its start, the instruction it dispatches and the
trace entry it leaves. -/

namespace Sys2Proof.Machine

/-! ### The start of a turn -/

theorem beginTurn_of_idle {s : State} (h : s.core = 0 → s.slot = .idle) : beginTurn s = s := by
  unfold beginTurn
  split
  · next hcore => exact flush_of_idle (h hcore)
  · rfl

theorem beginTurn_of_core_zero {s : State} (h : s.core = 0) : beginTurn s = flush s := if_pos h

theorem beginTurn_of_core_ne_zero {s : State} (h : s.core ≠ 0) : beginTurn s = s := if_neg h

theorem wrapPc_of_lt {s : State} (h : s.pc.toNat < memSize s.params) : wrapPc s = s := by
  rw [wrapPc, if_neg (Nat.not_le.mpr h)]

theorem wrapPc_of_ge {s : State} (h : memSize s.params ≤ s.pc.toNat) : wrapPc s = { s with pc := 0 } := by
  rw [wrapPc, if_pos h]

theorem wrapPc_of_pc_zero (s : State) : wrapPc { s with pc := 0 } = { s with pc := 0 } := by
  rw [wrapPc, ite_self]

/-! ### The dispatch of the fetched word -/

/-- With nothing to flush first, the step is the turn and its end. -/
theorem step_of_nothing_pending {s : State} (hconfig : refusalOf s = none) (hrun : s.halted = false)
    (hidle : s.core = 0 → s.slot = .idle) : step s = mapNext endTurn (takeTurn s) := by
  rw [step_of_running hconfig hrun, beginTurn_of_idle hidle]

theorem takeTurn_of_lt {s : State} (h : s.pc.toNat < memSize s.params) :
    takeTurn s = exec (decode (fetchWord s)) (afterFetch s) := by
  rw [takeTurn, wrapPc_of_lt h]

theorem takeTurn_of_storage {s : State} (h : s.pc.toNat < memSize s.params) (hn : NotReadHooked s s.pc.toNat) :
    takeTurn s = exec (decode (normalize (cellAt s.mem s.pc.toNat)))
      (traceFetch (normalize (cellAt s.mem s.pc.toNat)) s) := by
  have hword : fetchWord s = normalize (cellAt s.mem s.pc.toNat) := by
    rw [fetchWord, memReadWord_of_notHooked hn, if_pos h]
  rw [takeTurn_of_lt h, afterFetch_of_notHooked hn, hword]

theorem takeTurn_of_hook {s : State} {k : Nat} {h : Hook} (hlt : s.pc.toNat < memSize s.params)
    (hc : FirstCovering s s.pc.toNat k h) :
    takeTurn s = exec (decode (deviceAnswerAt s h s.pc.toNat)) (traceFetch (deviceAnswerAt s h s.pc.toNat)
      { s with answers := s.answers.tail, draws := s.draws + 1,
               events := s.events ++ [.readCall k s.pc.toNat (deviceAnswerAt s h s.pc.toNat)] }) := by
  rw [takeTurn_of_lt hlt, afterFetch, fetchWord, memReadWord_of_firstCovering hc, memReadEffect_of_firstCovering hc]

theorem takeTurn_of_ge {s : State} (h : memSize s.params ≤ s.pc.toNat) : takeTurn s = takeTurn { s with pc := 0 } := by
  rw [takeTurn, takeTurn, wrapPc_of_ge h, wrapPc_of_pc_zero]

theorem refusalOf_flush (s : State) : refusalOf (flush s) = refusalOf s :=
  refusalOf_congr (flush_params s) (flush_rhooks s) (flush_whooks s) (flush_core s)

/-- The flush at the start of a cycle finds an idle slot when it has been done before. -/
theorem step_flush_of_core_zero {s : State} (hconfig : refusalOf s = none) (hrun : s.halted = false)
    (hcore : s.core = 0) : step s = step (flush s) := by
  have hagain : beginTurn (flush s) = flush s := beginTurn_of_idle fun _ => flush_slot s
  rw [step_of_running hconfig hrun, step_of_running ((refusalOf_flush s).trans hconfig) ((flush_halted s).trans hrun),
    beginTurn_of_core_zero hcore, hagain]

/-- Settles O38: the turn by where its word comes from; an encoding that storage delivers decodes to its
instruction. -/
theorem stepRunsTheDecodedInstruction : Obligations.StepRunsTheDecodedInstruction := by
  intro s hconfig hrun
  refine ⟨fun hidle => ?turn, step_flush_of_core_zero hconfig hrun⟩
  rw [step_of_nothing_pending hconfig hrun hidle]
  refine ⟨fun hlt hn => ?storage, fun i hi hdeliver hlt hn hcell => ?encoding, fun k h hlt hc => ?hook,
    fun hge => ?wrap⟩
  case storage => rw [takeTurn_of_storage hlt hn]
  case encoding => rw [takeTurn_of_storage hlt hn, hcell, hdeliver, Laws.decodeInvertsEncode i hi]
  case hook => rw [takeTurn_of_hook hlt hc]
  case wrap =>
    have hstep : step { s with pc := 0 } = mapNext endTurn (takeTurn { s with pc := 0 }) :=
      step_of_nothing_pending hconfig hrun hidle
    rw [hstep, takeTurn_of_ge hge]

/-! ### The trace -/

/-- What a step of a running machine with an idle slot comes from: the dispatch of the next word. -/
theorem step_idle_cases {s t : State} (hidle : s.slot = .idle) (hrun : s.halted = false) (h : step s = .next t) :
    ∃ u, exec (decode (nextWord s)) (afterFetch (wrapPc s)) = .next u ∧ t = endTurn u := by
  obtain ⟨_, ⟨hhalted, _⟩ | ⟨_, u, hturn, ht⟩⟩ := step_cases h
  · exact absurd hrun (by simp [hhalted])
  · rw [beginTurn_of_idle fun _ => hidle] at hturn
    exact ⟨u, hturn, ht⟩

/-- A device that sees the fetch changes nothing the entry records. -/
theorem afterFetch_trace (s : State) :
    (afterFetch s).trace =
      if s.params.traceEn = true ∧ s.trace.length < s.params.traceCap then s.trace ++ [traceEntryOf (fetchWord s) s]
      else s.trace := by
  have hentry : traceEntryOf (fetchWord s) (memReadEffect s.pc.toNat s) = traceEntryOf (fetchWord s) s := by
    simp only [traceEntryOf, memReadEffect_pc, readReg_memReadEffect, secValue_congr (memReadEffect_regs s _)]
  rw [afterFetch, traceFetch_trace, hentry, memReadEffect_params, memReadEffect_trace]

/-- Settles O53: the fetch leaves the entry, and neither the dispatch nor the end of the turn touches the trace. -/
theorem traceRecordsTheFetch : Obligations.TraceRecordsTheFetch := by
  intro s t hidle hrun hstep
  obtain ⟨u, hexec, rfl⟩ := step_idle_cases hidle hrun hstep
  calc (endTurn u).trace
    _ = (afterFetch (wrapPc s)).trace := (endTurn_trace u).trans (dispatchFrame_of_exec hexec).trace
    _ = _ := afterFetch_trace (wrapPc s)

end Sys2Proof.Machine
end

section
/-! SUPPORT. Proofs for 40_cycle_engine.md, the turns of a cycle (R70, R81) and the halt (R76, R78). -/

namespace Sys2Proof.Machine

/-! ### What a turn keeps -/

theorem takeTurn_answers (s : State) : ∃ u, takeTurn s = .next u :=
  (exec_frame _ _).imp fun _ h => h.1

theorem takeTurn_params {s u : State} (h : takeTurn s = .next u) : u.params = s.params := by
  simpa using (takeTurn_dispatchFrame h).params

theorem takeTurn_core {s u : State} (h : takeTurn s = .next u) : u.core = s.core := by
  simpa using (takeTurn_dispatchFrame h).core

/-- A step keeps the configuration, and the next turn is again that of a core of the roster. -/
theorem refusalOf_of_step {s t : State} (h : step s = .next t) : refusalOf t = none := by
  obtain ⟨hconfig, ⟨_, rfl⟩ | ⟨_, u, hturn, rfl⟩⟩ := step_cases h
  · exact hconfig
  · have hframe := takeTurn_dispatchFrame hturn
    have hsame : refusalOf u = refusalOf s := refusalOf_congr (by simpa using hframe.params)
      (by simpa using hframe.rhooks) (by simpa using hframe.whooks) (by simpa using hframe.core)
    exact endTurn_refusalOf (hsame.trans hconfig)

theorem step_params {s t : State} (h : step s = .next t) : t.params = s.params := by
  obtain ⟨_, ⟨_, rfl⟩ | ⟨_, u, hturn, rfl⟩⟩ := step_cases h
  · rfl
  · rw [endTurn_params, takeTurn_params hturn, beginTurn_params]

theorem step_answers {s : State} (hconfig : refusalOf s = none) (hrun : s.halted = false) :
    ∃ t, step s = .next t := by
  obtain ⟨u, hturn⟩ := takeTurn_answers (beginTurn s)
  exact ⟨endTurn u, by rw [step_of_running hconfig hrun, hturn, mapNext_next]⟩

theorem finishMul_halted (rd : Reg) (v : Half) (s : State) : (finishMul rd v s).halted = s.halted := by
  unfold finishMul
  split <;> rfl

/-! ### The order of the turns -/

/-- Settles O56: the turn of the last core ends the cycle, and any other passes to the next core. -/
theorem coresTakeTurnsInOrder : Obligations.CoresTakeTurnsInOrder := by
  intro s t hrun hstep hruns
  obtain ⟨hconfig, ⟨hhalted, _⟩ | ⟨_, u, hturn, rfl⟩⟩ := step_cases hstep
  · exact absurd hrun (by simp [hhalted])
  · have hparams : u.params = s.params := (takeTurn_params hturn).trans (beginTurn_params s)
    have hcore : u.core = s.core := (takeTurn_core hturn).trans (beginTurn_core s)
    rw [endTurn_halted] at hruns
    rw [endTurn_core, hcore]
    obtain hk | hk : s.core + 1 = ncores s.params ∨ s.core + 1 < ncores s.params :=
      Nat.eq_or_lt_of_le (refusalOf_eq_none.mp hconfig).2
    · rw [if_pos (cycleEnds_iff.mpr (.inr (by rw [hparams, hcore, hk]))), hk, Nat.mod_self]
    · have hgoes : cycleEnds u = false := cycleEnds_eq_false hruns (by rwa [hparams, hcore])
      rw [hgoes, if_neg Bool.false_ne_true, Nat.mod_eq_of_lt hk]

/-! ### A cycle is made of steps -/

theorem run_of_halted {s : State} (hconfig : refusalOf s = none) (hhalt : s.halted = true) (n : Nat) :
    Host.Core.run core n s = .next s := by
  induction n with
  | zero => rfl
  | succ n ih =>
    have hstep : core.step s = .next s := step_of_halted hconfig hhalt
    simpa only [Host.Core.run, hstep] using ih

theorem runCycle_of_halted {s : State} (hconfig : refusalOf s = none) (hhalt : s.halted = true) :
    runCycle s = .next s := by
  simp [runCycle, hconfig, hhalt]

theorem runCycle_of_running {s : State} (hconfig : refusalOf s = none) (hrun : s.halted = false) (hcore : s.core = 0) :
    runCycle s = cycleTurns (ncores s.params) (flush s) := by
  simp [runCycle, hconfig, hrun, betweenCycles_eq_true hcore]

/-- The first turn of those still to be taken is a step; at a halt the rest of the steps change nothing, as the cycle
takes no further turn. -/
theorem cycleTurns_succ_eq_run {n : Nat} {s t : State} (hrun : s.halted = false) (hstep : step s = .next t)
    (hrest : t.halted = false → cycleTurns n t = Host.Core.run core n t) :
    cycleTurns (n + 1) (beginTurn s) = Host.Core.run core (n + 1) s := by
  have hcore : core.step s = .next t := hstep
  obtain ⟨_, ⟨hhalted, _⟩ | ⟨_, u, hturn, rfl⟩⟩ := step_cases hstep
  · exact absurd hrun (by simp [hhalted])
  · simp only [cycleTurns, Host.Core.run, hturn, hcore]
    cases hhalt : (endTurn u).halted with
    | true => exact (run_of_halted (refusalOf_of_step hstep) hhalt n).symm
    | false => exact hrest hhalt

/-- From any core's turn on, the rest of the cycle is one step for each core left: the flush before the first turn is
the step's own, and no later turn has one. -/
theorem cycleTurns_eq_run {n : Nat} {s : State} (hconfig : refusalOf s = none) (hrun : s.halted = false)
    (hk : s.core + (n + 1) = ncores s.params) :
    cycleTurns (n + 1) (beginTurn s) = Host.Core.run core (n + 1) s := by
  induction n generalizing s with
  | zero =>
    obtain ⟨t, hstep⟩ := step_answers hconfig hrun
    exact cycleTurns_succ_eq_run hrun hstep fun _ => rfl
  | succ n ih =>
    obtain ⟨t, hstep⟩ := step_answers hconfig hrun
    refine cycleTurns_succ_eq_run hrun hstep fun hruns => ?_
    have hcore : t.core = s.core + 1 :=
      (coresTakeTurnsInOrder s t hrun hstep hruns).trans (Nat.mod_eq_of_lt (by omega))
    have hleft : t.core + (n + 1) = ncores t.params := by
      rw [step_params hstep]
      omega
    have hrest := ih (refusalOf_of_step hstep) hruns hleft
    rwa [beginTurn_of_core_ne_zero (by omega)] at hrest

/-- Settles O55: the flush that starts the cycle is that of core 0's step. -/
theorem cycleIsOneStepPerCore : Obligations.CycleIsOneStepPerCore := by
  intro s hconfig hcore
  cases hhalt : s.halted with
  | true => exact (runCycle_of_halted hconfig hhalt).trans (run_of_halted hconfig hhalt _).symm
  | false =>
    obtain ⟨n, hn⟩ := Nat.exists_eq_succ_of_ne_zero (ncores_pos_of_not_refused hconfig).ne'
    rw [runCycle_of_running hconfig hhalt hcore, ← beginTurn_of_core_zero hcore, hn]
    exact cycleTurns_eq_run hconfig hhalt (by omega)

/-! ### The halt -/

/-- No dispatch but halt's ends halted. -/
theorem exec_halted_cases {i : Instr} {s t : State} (h : exec i s = .next t) :
    t.halted = s.halted ∨ ∃ moi rd rs sec, i = .halt moi rd rs sec := by
  cases i with
  | halt moi rd rs sec => exact .inr ⟨moi, rd, rs, sec, rfl⟩
  | jump moi rd sync cond sec =>
    obtain hc | hc | hc := exec_jump_cases moi rd sync cond sec s
    all_goals
      obtain rfl := Host.Outcome.next.inj (hc.symm.trans h)
      exact .inl rfl
  | mul rd rs sec | muls rd rs sec | mulh rd rs sec | mulx rd rs sec =>
    obtain rfl := Host.Outcome.next.inj h
    exact .inl (finishMul_halted rd _ s)
  | _ =>
    obtain rfl := Host.Outcome.next.inj h
    exact .inl rfl

/-- Settles O45: the halting dispatch was halt's, and a halted machine's turn ends the cycle. -/
theorem haltedIsTerminalAndOnlyByHalt : Obligations.HaltedIsTerminalAndOnlyByHalt := by
  refine ⟨fun s hconfig hhalt => ⟨step_of_halted hconfig hhalt, runCycle_of_halted hconfig hhalt⟩,
    fun s t hidle hrun hstep hhalt => ?_⟩
  have hcycle : runCycle t = .next t := runCycle_of_halted (refusalOf_of_step hstep) hhalt
  obtain ⟨u, hexec, rfl⟩ := step_idle_cases hidle hrun hstep
  rw [endTurn_halted] at hhalt
  refine ⟨?halts, ?boundary, hcycle⟩
  case halts =>
    obtain hsame | hishalt := exec_halted_cases hexec
    · rw [afterFetch_halted, wrapPc_halted, hrun, hhalt] at hsame
      contradiction
    · exact hishalt
  case boundary => rw [endTurn_core, if_pos (cycleEnds_iff.mpr (.inl hhalt))]

end Sys2Proof.Machine
end

section
/-! SUPPORT. Proofs for 41_alu.md, the statements on addition and subtraction (R91, R92) and on the compare that reads
them through the condition table (R101): the flags of the adder as numbers, and sub as sbb without a borrow. -/

namespace Sys2Proof.Machine

/-! ### Signed values -/

/-- Overflow from the sign bits is signed overflow: for operands and result of one exact signed sum. -/
theorem overflow_signs_iff {m n c : Nat} (hm : m < 65536) (hn : n < 65536) (hc : c < 2) :
    ((m < 32768 ↔ n < 32768) ∧ ¬((m + n + c) % 65536 < 32768 ↔ m < 32768)) ↔
      (signed16 m + signed16 n + (c : Int) < -32768 ∨ 32767 < signed16 m + signed16 n + (c : Int)) := by
  unfold signed16
  split <;> split <;> omega

/-- The signed value of a complement (00_scope.md R7). -/
theorem signed16_complement {n : Nat} (hn : n < 65536) : signed16 (65535 - n) = -1 - signed16 n := by
  unfold signed16
  split <;> split <;> omega

theorem signed16_inj {m n : Nat} (hm : m < 65536) (hn : n < 65536) : signed16 m = signed16 n ↔ m = n := by
  unfold signed16
  split <;> split <;> omega

/-- The sign bit of a wrapped difference, corrected by the overflow, is the sign of the exact difference. -/
theorem sign_bne_overflow {m n : Nat} (hm : m < 65536) (hn : n < 65536) :
    (decide (32768 ≤ (m + 65536 - n) % 65536) != outside16 (signed16 m - signed16 n)) =
      decide (signed16 m < signed16 n) := by
  rw [Bool.eq_iff_iff, bne_iff_ne, ne_eq, outside16, decide_eq_decide, decide_eq_true_eq]
  unfold signed16
  split <;> split <;> omega

/-! ### The adder -/

theorem decide_half_eq_zero (r : Half) : decide (r = 0) = decide (r.toNat = 0) :=
  decide_eq_decide.mpr BitVec.toNat_inj.symm

@[simp] theorem addc_value_toNat (a b : Half) (cin : Bool) :
    (addc a b cin).value.toNat = (a.toNat + b.toNat + cin.toNat) % 65536 := BitVec.toNat_ofNat _ _

theorem bit15_eq_bit15_iff (a b : Half) : bit15 a = bit15 b ↔ (a.toNat < 32768 ↔ b.toNat < 32768) := by
  rw [bit15, bit15, decide_eq_decide, ← Nat.not_lt, ← Nat.not_lt, not_iff_not]

/-- The Overflow of R91 on naturals. -/
theorem addc_overflow_signs (a b : Half) (cin : Bool) :
    (addc a b cin).flags.v = some (decide ((a.toNat < 32768 ↔ b.toNat < 32768) ∧
      ¬((addc a b cin).value.toNat < 32768 ↔ a.toNat < 32768))) := by
  simp only [← bit15_eq_bit15_iff]
  rfl

theorem addc_flags (a b : Half) (cin : Bool) :
    (addc a b cin).flags =
      ⟨some (decide ((addc a b cin).value.toNat = 0)), some (decide (32768 ≤ (addc a b cin).value.toNat)),
        some (decide (65535 < a.toNat + b.toNat + cin.toNat)),
        some (outside16 (signed16 a.toNat + signed16 b.toNat + (cin.toNat : Int)))⟩ := by
  have overflow : (addc a b cin).flags.v =
      some (outside16 (signed16 a.toNat + signed16 b.toNat + (cin.toNat : Int))) := by
    rw [addc_overflow_signs, addc_value_toNat, outside16]
    simp only [overflow_signs_iff a.isLt b.isLt cin.toNat_lt]
  rw [← overflow, ← decide_half_eq_zero]
  rfl

/-- Settles O10: the value and the flags of the adder, Overflow in both forms, and the worked example. -/
theorem adderRule : Obligations.AdderRule := by
  refine ⟨fun a b cin => ?_, fun a b => rfl, by decide⟩
  have hflags := addc_flags a b cin
  exact ⟨addc_value_toNat a b cin, congrArg FlagUpdate.z hflags, congrArg FlagUpdate.s hflags,
    congrArg FlagUpdate.c hflags, addc_overflow_signs a b cin, congrArg FlagUpdate.v hflags⟩

/-! ### Subtraction, with the incoming borrow `c` -/

theorem bool_toNat_not (c : Bool) : (!c).toNat = 1 - c.toNat := by cases c <;> rfl

@[simp] theorem complement16_toNat (b : Half) : (complement16 b).toNat = 65535 - b.toNat := by
  rw [complement16, BitVec.toNat_ofNat]
  omega

theorem aluSub_eq_aluSbb (a b : Half) : aluSub a b = aluSbb a b false := rfl

section Borrow

variable (a b : Half) (c : Bool)

theorem aluSbb_value_toNat : (aluSbb a b c).value.toNat = (a.toNat + 65536 - (b.toNat + c.toNat)) % 65536 := by
  have hvalue : (aluSbb a b c).value = (addc a (complement16 b) (!c)).value := rfl
  rw [hvalue, addc_value_toNat, complement16_toNat, bool_toNat_not]
  have := b.isLt
  have := c.toNat_le
  congr 1
  omega

/-- The adder carries out exactly when there is no borrow, and its signed sum is the signed difference. -/
theorem aluSbb_flags :
    (aluSbb a b c).flags =
      ⟨some (decide ((aluSbb a b c).value.toNat = 0)), some (decide (32768 ≤ (aluSbb a b c).value.toNat)),
        some (decide (a.toNat < b.toNat + c.toNat)),
        some (outside16 (signed16 a.toNat - signed16 b.toNat - (c.toNat : Int)))⟩ := by
  have hb := b.isLt
  have hc := c.toNat_le
  have carry : (!decide (65535 < a.toNat + (65535 - b.toNat) + (1 - c.toNat))) =
      decide (a.toNat < b.toNat + c.toNat) := by
    rw [← decide_not, decide_eq_decide]
    omega
  have difference : signed16 a.toNat + signed16 (65535 - b.toNat) + ((1 - c.toNat : Nat) : Int) =
      signed16 a.toNat - signed16 b.toNat - (c.toNat : Int) := by
    rw [signed16_complement hb]
    omega
  have hflags : (aluSbb a b c).flags = { (addc a (complement16 b) (!c)).flags with
      c := (addc a (complement16 b) (!c)).flags.c.map (!·) } := rfl
  rw [hflags, addc_flags, complement16_toNat, bool_toNat_not, difference, Option.map_some, carry]
  rfl

end Borrow

theorem aluSub_value_toNat (a b : Half) : (aluSub a b).value.toNat = (a.toNat + 65536 - b.toNat) % 65536 :=
  aluSbb_value_toNat a b false

theorem aluSub_flags (a b : Half) :
    (aluSub a b).flags =
      ⟨some (decide ((aluSub a b).value.toNat = 0)), some (decide (32768 ≤ (aluSub a b).value.toNat)),
        some (decide (a.toNat < b.toNat)), some (outside16 (signed16 a.toNat - signed16 b.toNat))⟩ := by
  rw [aluSub_eq_aluSbb]
  have hflags := aluSbb_flags a b false
  rwa [Bool.toNat_false, Nat.cast_zero, sub_zero, add_zero] at hflags

/-- Settles O11: sub is sbb without a borrow; Sign xor Overflow is `sign_bne_overflow`. -/
theorem subtractRule : Obligations.SubtractRule := by
  refine ⟨fun a b => ?_, by decide⟩
  have hflags := aluSub_flags a b
  have hsign := congrArg FlagUpdate.s hflags
  have hoverflow := congrArg FlagUpdate.v hflags
  refine ⟨rfl, complement16_toNat b, aluSub_value_toNat a b, congrArg FlagUpdate.z hflags, hsign,
    congrArg FlagUpdate.c hflags, hoverflow, _, _, hsign, hoverflow, ?_⟩
  rw [aluSub_value_toNat]
  exact sign_bne_overflow a.isLt b.isLt

/-- Settles O13: both results as naturals modulo 65536. -/
theorem subUndoesAdd : Obligations.SubUndoesAdd := by
  intro a b
  apply BitVec.eq_of_toNat_eq
  have hsum : (aluAdd a b).value.toNat = (a.toNat + b.toNat) % 65536 := addc_value_toNat a b false
  rw [aluSub_value_toNat, hsum]
  have := a.isLt
  have := b.isLt
  omega

/-! ### The condition table after a compare -/

/-- Settles O17: entries 0 to 7 are `conditionBase`, entries 8 to 15 its negation. -/
theorem conditionTableRule : Obligations.ConditionTableRule := fun _ =>
  ⟨rfl, rfl, rfl, rfl, rfl, rfl, rfl, rfl, rfl, rfl, rfl, rfl, rfl, rfl, rfl, rfl⟩

/-- The flags of the difference of two halves, given as naturals (R92). -/
def compareFlags (m n : Nat) : Flags :=
  arithFlags ((m + 65536 - n) % 65536) (decide (m < n)) (outside16 (signed16 m - signed16 n))

theorem applyUpdate_aluSub (a b : Half) (f : Flags) :
    applyUpdate (aluSub a b).flags f = compareFlags a.toNat b.toNat := by
  rw [aluSub_flags, aluSub_value_toNat]
  rfl

section Compare

variable {m n : Nat} (hm : m < 65536) (hn : n < 65536)
include hm hn

theorem compareFlags_z : (compareFlags m n).z = decide (m = n) := by
  have hzero : (m + 65536 - n) % 65536 = 0 ↔ m = n := by omega
  exact decide_eq_decide.mpr hzero

theorem compareFlags_sign_xor_overflow :
    ((compareFlags m n).s ^^ (compareFlags m n).v) = decide (signed16 m < signed16 n) := sign_bne_overflow hm hn

theorem compareFlags_carry_or_zero : ((compareFlags m n).c || (compareFlags m n).z) = decide (m ≤ n) := by
  rw [compareFlags_z hm hn, compareFlags, arithFlags, ← Bool.decide_or, decide_eq_decide, Nat.le_iff_lt_or_eq]

theorem compareFlags_zero_or_less :
    ((compareFlags m n).z || ((compareFlags m n).s ^^ (compareFlags m n).v)) =
      decide (signed16 m ≤ signed16 n) := by
  rw [compareFlags_z hm hn, compareFlags_sign_xor_overflow hm hn, ← Bool.decide_or, decide_eq_decide,
    ← signed16_inj hm hn, le_iff_eq_or_lt]

end Compare

theorem finishAlu_r0_regs (moi : Bool) (out : AluOut) (s : State) : (finishAlu moi 0 out s).regs = s.regs := by
  rw [finishAlu, writeReg_of_no_register (i := (0 : Reg).val) _ (.inl rfl), advance_regs, commitFlags_regs]

theorem exec_compare_flags (rs : Reg) (sec : Operand) (s : State) :
    ∃ t, exec (.sub true 0 rs sec) s = .next t ∧ t.flags = compareFlags (secHalf s sec) (primHalf s rs) ∧
      t.regs = s.regs := by
  refine ⟨_, rfl, ?flags, finishAlu_r0_regs _ _ _⟩
  rw [← lo16_secValue_toNat, ← lo16_primValue_toNat]
  exact applyUpdate_aluSub _ _ _

/-- Settles O18: each entry of the table read on the flags of `exec_compare_flags`. -/
theorem compareThenConditionCompares : Obligations.CompareThenConditionCompares := by
  intro rs sec s
  have hsec := secHalf_lt s sec
  have hprim := primHalf_lt s rs
  obtain ⟨t, hexec, hflags, hregs⟩ := exec_compare_flags rs sec s
  obtain ⟨-, hbelow, hless, hle, -, hequal, -⟩ := conditionTableRule (compareFlags (secHalf s sec) (primHalf s rs))
  refine ⟨t, hexec, ?_⟩
  rw [hflags]
  exact ⟨hbelow.trans (compareFlags_carry_or_zero hsec hprim), hless.trans (compareFlags_sign_xor_overflow hsec hprim),
    hle.trans (compareFlags_zero_or_less hsec hprim), hequal.trans (compareFlags_z hsec hprim), hregs⟩

end Sys2Proof.Machine
end

section
/-! SUPPORT. Proofs for 41_alu.md, the statements on multiplication (R95 to R98) and on the left shift (R99). -/

namespace Sys2Proof.Machine

/-! ### The halves of a product -/

theorem aluMul_toNat (a b : Half) : (aluMul a b).toNat = a.toNat * b.toNat % 65536 :=
  (BitVec.toNat_ofNat _ _).trans (Nat.mod_mod _ _)

theorem aluMulh_toNat (a b : Half) : (aluMulh a b).toNat = a.toNat * b.toNat / 65536 := by
  have hlt : a.toNat * b.toNat / 65536 < 2 ^ 16 := Nat.div_lt_of_lt_mul (Nat.mul_lt_mul'' a.isLt b.isLt)
  exact (BitVec.toNat_ofNat _ _).trans (Nat.mod_eq_of_lt hlt)

theorem aluMuls_toNat (a b : Half) :
    (aluMuls a b).toNat = wrap16 (signed16 a.toNat * signed16 b.toNat / 65536) := ofInt16_toNat _

/-- A half and its signed value differ by a multiple of 65536. -/
theorem signed16_modEq (n : Nat) : signed16 n ≡ n [ZMOD 65536] := by
  unfold signed16 Int.ModEq
  split <;> omega

theorem abs_signed16_le {n : Nat} (hn : n < 65536) : |signed16 n| ≤ 32768 := by
  rw [abs_le]
  unfold signed16
  split <;> omega

/-- A signed value that 16 bits hold is read back from its pattern. -/
theorem signed16_wrap16 {x : Int} (hlo : -32768 ≤ x) (hhi : x ≤ 32767) : signed16 (wrap16 x) = x := by
  unfold signed16 wrap16
  split <;> omega

/-- The low half of a product does not depend on how the factors are read. -/
theorem aluMul_eq_emod {a b : Half} {x y : Int} (hx : x ≡ a.toNat [ZMOD 65536]) (hy : y ≡ b.toNat [ZMOD 65536]) :
    ((aluMul a b).toNat : Int) = x * y % 65536 := by
  rw [aluMul_toNat, Int.natCast_emod, Int.natCast_mul]
  exact (hx.mul hy).symm

/-- The high half of a product with a signed factor, as the floor of D22, is a signed 16-bit value. -/
theorem signed16_high_half {x y : Int} (hx : |x| ≤ 65535) (hy : |y| ≤ 32768) :
    signed16 (wrap16 (x * y / 65536)) = x * y / 65536 := by
  have hprod : |x * y| ≤ 65535 * 32768 := by
    rw [abs_mul]
    exact mul_le_mul hx hy (abs_nonneg y) (by decide)
  rw [abs_le] at hprod
  exact signed16_wrap16 (by omega) (by omega)

/-- For a signed operand that is not negative the mixed product is the unsigned one. -/
theorem aluMulx_eq_aluMulh {a b : Half} (hb : b.toNat < 32768) : aluMulx a b = aluMulh a b := by
  have hsigned : s16 b = b.toNat := if_pos hb
  rw [aluMulx, hsigned]
  exact BitVec.ofInt_natCast 16 (a.toNat * b.toNat / 65536)

/-- Settles O14: a high half and the common low half, put together by division with remainder. -/
theorem multiplyFunctionsAreProductHalves : Obligations.MultiplyFunctionsAreProductHalves := by
  intro a b
  have hb := abs_signed16_le b.isLt
  refine ⟨aluMul_toNat a b, ?unsigned, ?signed, ?mixed, aluMulx_eq_aluMulh⟩
  case unsigned =>
    rw [aluMulh_toNat, aluMul_toNat]
    exact Nat.div_add_mod' _ _
  case signed =>
    have ha : |signed16 a.toNat| ≤ 65535 := (abs_signed16_le a.isLt).trans (by decide)
    rw [aluMuls_toNat, signed16_high_half ha hb, aluMul_eq_emod (signed16_modEq _) (signed16_modEq _)]
    exact Int.ediv_mul_add_emod _ _
  case mixed =>
    have ha : |(a.toNat : Int)| ≤ 65535 := by
      rw [Nat.abs_cast]
      have := a.isLt
      omega
    rw [aluMulx_toNat, signed16_high_half ha hb, aluMul_eq_emod rfl (signed16_modEq _)]
    exact Int.ediv_mul_add_emod _ _

/-! ### The left shift -/

/-- Zero and Sign of a half as the statements write them, on naturals. -/
theorem zeroSign_eq (r : Half) :
    zeroSign r = ⟨some (decide (r.toNat = 0)), some (decide (32768 ≤ r.toNat)), none, none⟩ := by
  rw [← decide_half_eq_zero]
  rfl

/-- Settles O15: the value of `shiftValue`, the flags of `zeroSign`, and the two worked examples. -/
theorem shiftLeftRule : Obligations.ShiftLeftRule :=
  ⟨fun a n => ⟨aluShl_value_toNat .logical a n, zeroSign_eq (aluShl a n).value⟩, by decide, by decide⟩

end Sys2Proof.Machine
end

section
/-! SUPPORT. Proofs for 43_arithmetic.md, the statements on sub (R120) and add (R122): the committed flags of the adder
and the end of an ALU instruction, put together. -/

namespace Sys2Proof.Machine

/-- The adder proposes all four flags, so its committed update keeps none of the old ones (41_alu.md R91). -/
theorem applyUpdate_addc (a b : Half) (cin : Bool) (f : Flags) :
    applyUpdate (addc a b cin).flags f = arithFlags (addc a b cin).value.toNat
      (decide (65535 < a.toNat + b.toNat + cin.toNat))
      (outside16 (signed16 a.toNat + signed16 b.toNat + (cin.toNat : Int))) := by
  rw [addc_flags]
  rfl

theorem aluAdd_value_toNat (a b : Half) : (aluAdd a b).value.toNat = (a.toNat + b.toNat) % 65536 :=
  addc_value_toNat a b false

theorem applyUpdate_aluAdd (a b : Half) (f : Flags) :
    applyUpdate (aluAdd a b).flags f = arithFlags ((a.toNat + b.toNat) % 65536)
      (decide (65535 < a.toNat + b.toNat)) (outside16 (signed16 a.toNat + signed16 b.toNat)) := by
  have hflags := applyUpdate_addc a b false f
  rwa [addc_value_toNat, Bool.toNat_false, Nat.cast_zero, add_zero, add_zero] at hflags

/-- Settles O21: the difference and its flags (`applyUpdate_aluSub`) at the end of an ALU instruction, with the
secondary operand as the minuend. -/
theorem subWritesDifferenceAndFlags : Obligations.SubWritesDifferenceAndFlags := by
  intro moi rd rs sec s
  have hc : Completes (.sub moi rd rs sec) rd s _ _ := completes_of_finishAlu rfl
  rwa [applyUpdate_aluSub, compareFlags, aluSub_value_toNat, lo16_secValue_toNat, lo16_primValue_toNat] at hc

/-- Settles O23: the sum and its flags (`applyUpdate_aluAdd`) at the end of an ALU instruction. -/
theorem addWritesSumAndFlags : Obligations.AddWritesSumAndFlags := by
  intro moi rd rs sec s
  have hc : Completes (.add moi rd rs sec) rd s _ _ := completes_of_finishAlu rfl
  rwa [applyUpdate_aluAdd, aluAdd_value_toNat, lo16_primValue_toNat, lo16_secValue_toNat] at hc

end Sys2Proof.Machine
end

section
/-! SUPPORT. Proofs for 46_control.md, the synchronized jump whose condition is true (R151) and the single-core hang
(R152): its turn below the last core, its turn on the last core, and that turn repeated. -/

namespace Sys2Proof.Machine

/-! ### The turn of a taken synchronized jump -/

/-- With nothing pending the end of a turn flushes nothing, under either reading of R6. -/
theorem endTurn_of_idle {s : State} (h : s.slot = .idle) :
    endTurn s = { s with core := if cycleEnds s then 0 else s.core + 1, imageLoadable := false } := by
  rw [endTurn, flushAfterTurn_of_idle h]

section TakenJump

variable {s : State} {moi : Bool} {rd : Reg} {cond : Cond} {sec : Operand}

theorem exec_jump_of_redirecting {sync : Bool} (hcond : conditionTable s.flags cond = true)
    (hgoes : onLastCore s = false) :
    exec (.jump moi rd sync cond sec) s = .next (redirect (secValue s sec) (writeReg rd.val (s.pc + 1) s)) := by
  simp [exec, execJump, hcond, hgoes]

theorem exec_jump_of_waiting (hcond : conditionTable s.flags cond = true) (hlast : onLastCore s = true) :
    exec (.jump moi rd true cond sec) s = .next s := by
  simp [exec, execJump, hcond, hlast]

variable (hready : Ready s) (hjump : decode (nextWord s) = .jump moi rd true cond sec)
  (hcond : conditionTable s.flags cond = true)
include hready hjump hcond

/-- Below the last core the jump links, goes to its target and passes the turn on. -/
theorem step_of_redirecting_jump (hbelow : s.core + 1 < ncores s.params) :
    step s = .next { redirect (secValue s sec) (writeReg rd.val (nextAddress s + 1) (afterFetch (wrapPc s))) with
      core := s.core + 1, imageLoadable := false } := by
  have hgoes : onLastCore (afterFetch (wrapPc s)) = false := by simpa [onLastCore] using hbelow.ne
  have htarget : secValue (afterFetch (wrapPc s)) sec = secValue s sec := secValue_congr (afterFetch_regs _) sec
  have hlink : (afterFetch (wrapPc s)).pc = nextAddress s := afterFetch_pc _
  rw [step_of_ready hready, hjump, exec_jump_of_redirecting (by simpa using hcond) hgoes, mapNext_next,
    endTurn_of_idle (by simpa using hready.slot), if_neg ?within, htarget, hlink,
    redirect_core, writeReg_core, afterFetch_core]
  · rfl
  case within => simpa [cycleEnds, hready.running] using hbelow

/-- On the last core nothing is left of the turn but its fetch, and the next turn is core 0's. -/
theorem step_of_waiting_jump (hlast : s.core + 1 = ncores s.params) :
    step s = .next { afterFetch (wrapPc s) with core := 0, imageLoadable := false } := by
  have hwaits : onLastCore (afterFetch (wrapPc s)) = true := by simpa [onLastCore] using hlast
  have hends : cycleEnds (afterFetch (wrapPc s)) = true := by simp [cycleEnds, hlast]
  rw [step_of_ready hready, hjump, exec_jump_of_waiting (by simpa using hcond) hwaits, mapNext_next,
    endTurn_of_idle (by simpa using hready.slot), if_pos hends]

end TakenJump

/-- Settles O57: a core of the roster is below the last or is the last. -/
theorem synchronizedJumpRule : Obligations.SynchronizedJumpRule := by
  intro s moi rd cond sec hready hjump hcond
  obtain hlast | hbelow : s.core + 1 = ncores s.params ∨ s.core + 1 < ncores s.params :=
    Nat.eq_or_lt_of_le (refusalOf_eq_none.mp hready.config).2
  · exact ⟨_, step_of_waiting_jump hready hjump hcond hlast, afterFetch_flags _, fun hbelow => absurd hlast hbelow.ne,
      fun _ => ⟨afterFetch_pc _, afterFetch_regs _, rfl⟩⟩
  · exact ⟨_, step_of_redirecting_jump hready hjump hcond hbelow, afterFetch_flags _,
      fun _ => ⟨rfl, rfl, Nat.succ_ne_zero _⟩, fun hlast => absurd hlast hbelow.ne⟩

/-! ### The single-core hang -/

/-- The premises of R152: a single core, which is always the last, is about to take a synchronized jump from
storage. -/
structure Hangs (s : State) : Prop where
  ready : Ready s
  oneCore : ncores s.params = 1
  unhooked : NotReadHooked s (nextAddress s).toNat
  jump : ∃ moi rd cond sec, decode (nextWord s) = .jump moi rd true cond sec ∧ conditionTable s.flags cond = true

/-- What the waiting turn leaves: `pc` wrapped, the trace entry of the fetch, and no image to be loaded. -/
def waited (s : State) : State := { traceFetch (nextWord s) (wrapPc s) with imageLoadable := false }

theorem waited_frame (s : State) :
    waited s = { s with pc := nextAddress s, imageLoadable := false, trace := (waited s).trace } := rfl

/-- A wrapped `pc` does not wrap again. -/
theorem wrapPc_wrapPc (s : State) : wrapPc (wrapPc s) = wrapPc s := by
  obtain hlt | hge := Nat.lt_or_ge s.pc.toNat (memSize s.params)
  · rw [wrapPc_of_lt hlt, wrapPc_of_lt hlt]
  · rw [wrapPc_of_ge hge, wrapPc_of_pc_zero]

theorem nextAddress_waited (s : State) : nextAddress (waited s) = nextAddress s :=
  calc (wrapPc (waited s)).pc
    _ = (wrapPc (wrapPc s)).pc := rfl
    _ = nextAddress s := congrArg State.pc (wrapPc_wrapPc s)

/-- The same address, and a read of it sees neither `pc` nor the trace. -/
theorem nextWord_waited (s : State) : nextWord (waited s) = nextWord s :=
  congrArg (fun a : Word => memReadWord s a.toNat) (nextAddress_waited s)

theorem Hangs.step_eq {s : State} (h : Hangs s) : step s = .next (waited s) := by
  obtain ⟨moi, rd, cond, sec, hjump, hcond⟩ := h.jump
  have hcore : s.core = 0 := by
    have hroster := (refusalOf_eq_none.mp h.ready.config).2
    have hone := h.oneCore
    omega
  have hlast : s.core + 1 = ncores s.params := by rw [hcore, h.oneCore]
  rw [step_of_waiting_jump h.ready hjump hcond hlast, afterFetch_of_notHooked h.unhooked, ← hcore]
  rfl

/-- The hang is its own premise: whatever it reads is as before. -/
theorem hangs_waited {s : State} (h : Hangs s) : Hangs (waited s) where
  ready := ⟨h.ready.config, h.ready.running, h.ready.slot⟩
  oneCore := h.oneCore
  unhooked := by
    rw [nextAddress_waited]
    exact h.unhooked
  jump := by
    rw [nextWord_waited]
    exact h.jump

theorem run_succ_of_step {s t : State} (h : step s = .next t) (n : Nat) :
    Host.Core.run core (n + 1) s = Host.Core.run core n t := by
  have hstep : core.step s = .next t := h
  simp only [Host.Core.run, hstep]

theorem Hangs.run {s : State} (h : Hangs s) (n : Nat) :
    ∃ t, Host.Core.run core (n + 1) s = .next t ∧
      t = { s with pc := nextAddress s, imageLoadable := false, trace := t.trace } := by
  induction n generalizing s with
  | zero => exact ⟨_, run_succ_of_step h.step_eq 0, waited_frame s⟩
  | succ n ih =>
    obtain ⟨t, hrun, hframe⟩ := ih (hangs_waited h)
    rw [nextAddress_waited] at hframe
    exact ⟨t, (run_succ_of_step h.step_eq (n + 1)).trans hrun, hframe⟩

/-- Settles O58: the waiting turn leaves a machine that waits again (`hangs_waited`). -/
theorem singleCoreSynchronizedJumpHangs : Obligations.SingleCoreSynchronizedJumpHangs :=
  fun _ moi rd cond sec hready hone hunhooked hjump hcond =>
    Hangs.run ⟨hready, hone, hunhooked, moi, rd, cond, sec, hjump, hcond⟩

end Sys2Proof.Machine
end

section
/-! SUPPORT. Proofs for 47_load_store.md, the effective address (R160). -/

namespace Sys2Proof.Machine

theorem effectiveAddress_toNat (s : State) (rs : Reg) (sec : Operand) :
    (effectiveAddress s rs sec).toNat = ((primValue s rs).toNat + (secValue s sec).toNat) % 65536 :=
  (BitVec.toNat_ofNat _ 16).trans (Nat.mod_mod _ 65536)

/-- Only the low halves reach the address: reducing the summands first loses nothing. -/
theorem effectiveAddress_toNat_of_halves (s : State) (rs : Reg) (sec : Operand) :
    (effectiveAddress s rs sec).toNat = (primHalf s rs + secHalf s sec) % 65536 :=
  (effectiveAddress_toNat s rs sec).trans (Nat.add_mod _ _ _)

/-- Arming the slot and advancing writes no register. -/
theorem advance_setSlot_slot_regs (p : Slot) (s : State) :
    (advance (setSlot p s)).slot = p ∧ (advance (setSlot p s)).regs = s.regs := by
  simp

/-- Settles O31: the masked full sum, its form on the halves, and the slot that load and store arm with it. -/
theorem effectiveAddressRule : Obligations.EffectiveAddressRule := by
  intro rd rs sec s
  exact ⟨effectiveAddress_toNat s rs sec, effectiveAddress_toNat_of_halves s rs sec,
    ⟨_, exec_load false rd rs sec s, advance_setSlot_slot_regs _ s⟩,
    ⟨_, exec_store false rd rs sec s, advance_setSlot_slot_regs _ s⟩⟩

end Sys2Proof.Machine
end

section
/-! SUPPORT. Proofs for 60_exceptions.md, no exception ever (R170): only a configuration outside the ranges of
00_scope.md R5 has no next state. -/

namespace Sys2Proof.Machine

/-- The step of a configuration that is refused. -/
theorem step_of_refused {s : State} {r : Refusal} (h : refusalOf s = some r) : step s = .refused r := by
  simp only [step, runTurn, h]

/-- A step answers a next state, halted or not, exactly when nothing refuses the configuration. -/
theorem step_answers_iff {s : State} : (∃ t, step s = .next t) ↔ refusalOf s = none := by
  refine ⟨fun ⟨_, hstep⟩ => (step_cases hstep).1, fun hconfig => ?_⟩
  cases hrun : s.halted with
  | true => exact ⟨s, step_of_halted hconfig hrun⟩
  | false => exact step_answers hconfig hrun

/-- A core of the roster makes the lower bound on the number of cores hold by itself. -/
theorem configInRange_iff_of_core_lt {s : State} (hcore : s.core < ncores s.params) :
    configInRange s = true ↔ 1 ≤ memSize s.params ∧ memSize s.params ≤ 65536 ∧ ncores s.params ≤ 50 ∧
      s.rhooks.length ≤ 32 ∧ s.whooks.length ≤ 32 := by
  have hone : 1 ≤ ncores s.params := Nat.one_le_of_lt hcore
  simp only [configInRange, paramsInRange, hone, true_and, Bool.and_eq_true, decide_eq_true_eq, and_assoc]

theorem refusalOf_of_out_of_range {s : State} (h : ¬configInRange s = true) :
    refusalOf s = some .configurationOutOfRange := if_neg h

/-- Settles O40: every dispatch answers (`exec_frame`), and with the core in the roster the range test alone decides
whether the step does. -/
theorem noExceptionEver : Obligations.NoExceptionEver := by
  refine ⟨fun i s => (exec_frame i s).imp fun _ h => h.1, fun s hcore => ?_⟩
  rw [← configInRange_iff_of_core_lt hcore, step_answers_iff, refusalOf_eq_none]
  exact ⟨⟨fun hrange => ⟨hrange, hcore⟩, And.left⟩, fun hrange => step_of_refused (refusalOf_of_out_of_range hrange)⟩

end Sys2Proof.Machine
end

section
/-! SUPPORT. Proofs for 60_exceptions.md, the trace is invisible (R180, 10_state.md R20): each operation of a step
commutes with erasing the trace. -/

namespace Sys2Proof.Machine

/-! ### The memory primitives and the flush -/

theorem memReadEffect_eraseTrace (a : Nat) (s : State) :
    memReadEffect a (eraseTrace s) = eraseTrace (memReadEffect a s) := by
  have hfirst : firstReadHook (eraseTrace s) a = firstReadHook s a := rfl
  unfold memReadEffect
  rw [hfirst]
  split <;> rfl

theorem memWrite_eraseTrace (a : Nat) (v : Word) (s : State) :
    memWrite a v (eraseTrace s) = eraseTrace (memWrite a v s) := by
  have hmatching : matchingWriteHooks (eraseTrace s) a = matchingWriteHooks s a := rfl
  have hsize : memSize (eraseTrace s).params = memSize s.params := rfl
  unfold memWrite
  rw [hmatching, hsize]
  split
  · split <;> rfl
  · rfl

theorem flush_eraseTrace (s : State) : flush (eraseTrace s) = eraseTrace (flush s) := by
  have hslot : (eraseTrace s).slot = s.slot := rfl
  cases h : s.slot with
  | idle => rw [flush_of_idle h, flush_of_idle (hslot.trans h)]
  | read a r =>
    rw [flush_of_read h, flush_of_read (hslot.trans h), memReadEffect_eraseTrace]
    rfl
  | write a r =>
    rw [flush_of_write h, flush_of_write (hslot.trans h), memWrite_eraseTrace]
    rfl

/-! ### The turn -/

theorem beginTurn_eraseTrace (s : State) : beginTurn (eraseTrace s) = eraseTrace (beginTurn s) := by
  obtain hcore | hcore := eq_or_ne s.core 0
  · rw [beginTurn_of_core_zero hcore, beginTurn_of_core_zero (s := eraseTrace s) hcore, flush_eraseTrace]
  · rw [beginTurn_of_core_ne_zero hcore, beginTurn_of_core_ne_zero (s := eraseTrace s) hcore]

/-- With tracing off a fetch leaves no entry. -/
theorem traceFetch_eraseTrace (w : Word) (s : State) : traceFetch w (eraseTrace s) = eraseTrace s := by
  simp [traceFetch, eraseTrace]

/-- An entry that is left is erased again. -/
theorem eraseTrace_traceFetch (w : Word) (s : State) : eraseTrace (traceFetch w s) = eraseTrace s := rfl

theorem afterFetch_eraseTrace (s : State) : afterFetch (eraseTrace s) = eraseTrace (afterFetch s) := by
  have hpc : (eraseTrace s).pc = s.pc := rfl
  rw [afterFetch, hpc, memReadEffect_eraseTrace, traceFetch_eraseTrace, afterFetch, eraseTrace_traceFetch]

theorem finishMul_eraseTrace (rd : Reg) (v : Half) (s : State) :
    finishMul rd v (eraseTrace s) = eraseTrace (finishMul rd v s) := by
  have hgate : canMultiply (eraseTrace s).params (eraseTrace s).core = canMultiply s.params s.core := rfl
  unfold finishMul
  rw [hgate]
  split <;> rfl

theorem exec_jump_eraseTrace (moi : Bool) (rd : Reg) (sync : Bool) (cond : Cond) (sec : Operand) (s : State) :
    exec (.jump moi rd sync cond sec) (eraseTrace s) = mapNext eraseTrace (exec (.jump moi rd sync cond sec) s) := by
  have hflags : (eraseTrace s).flags = s.flags := rfl
  have hlast : onLastCore (eraseTrace s) = onLastCore s := rfl
  simp only [exec, execJump, hflags, hlast]
  split
  · split <;> rfl
  · rfl

/-- No instruction looks at the trace or at its settings. -/
theorem exec_eraseTrace (i : Instr) (s : State) : exec i (eraseTrace s) = mapNext eraseTrace (exec i s) := by
  cases i with
  | jump moi rd sync cond sec => exact exec_jump_eraseTrace moi rd sync cond sec s
  | mul rd rs sec | muls rd rs sec | mulh rd rs sec | mulx rd rs sec =>
    exact congrArg Host.Outcome.next (finishMul_eraseTrace rd _ s)
  | _ => rfl

theorem takeTurn_eraseTrace (s : State) : takeTurn (eraseTrace s) = mapNext eraseTrace (takeTurn s) := by
  have hwrap : wrapPc (eraseTrace s) = eraseTrace (wrapPc s) := rfl
  have hword : fetchWord (eraseTrace (wrapPc s)) = fetchWord (wrapPc s) := rfl
  rw [takeTurn, hwrap, hword, afterFetch_eraseTrace, exec_eraseTrace, takeTurn]

theorem flushAfterTurn_eraseTrace (s : State) : flushAfterTurn (eraseTrace s) = eraseTrace (flushAfterTurn s) := by
  have hpoints : (eraseTrace s).params.readings.flushPoints = s.params.readings.flushPoints := rfl
  have hends : cycleEnds (eraseTrace s) = cycleEnds s := rfl
  unfold flushAfterTurn
  rw [hpoints, hends, flush_eraseTrace]
  split
  · rfl
  · split <;> rfl

theorem endTurn_eraseTrace (s : State) : endTurn (eraseTrace s) = eraseTrace (endTurn s) := by
  have hends : cycleEnds (eraseTrace s) = cycleEnds s := rfl
  rw [endTurn, flushAfterTurn_eraseTrace, hends]
  rfl

/-! ### The step -/

/-- Settles O54: a refused and a halted configuration are the same with the trace erased; of a running one each part
of the step commutes. -/
theorem traceIsInvisible : Obligations.TraceIsInvisible := by
  intro s
  have hsame : refusalOf (eraseTrace s) = refusalOf s := rfl
  have hhalted : (eraseTrace s).halted = s.halted := rfl
  cases hconfig : refusalOf s with
  | some r => rw [step_of_refused hconfig, step_of_refused (hsame.trans hconfig)]; rfl
  | none =>
    cases hrun : s.halted with
    | true => rw [step_of_halted hconfig hrun, step_of_halted (hsame.trans hconfig) (hhalted.trans hrun)]; rfl
    | false =>
      obtain ⟨u, hturn⟩ := takeTurn_answers (beginTurn s)
      rw [step_of_running hconfig hrun, step_of_running (hsame.trans hconfig) (hhalted.trans hrun),
        beginTurn_eraseTrace, takeTurn_eraseTrace, hturn]
      exact congrArg Host.Outcome.next (endTurn_eraseTrace u).symm

end Sys2Proof.Machine
end

section
/-! SUPPORT. Proofs for 43_arithmetic.md, the statements on sbb (R93, R121) and adc (R123): the committed flags of the
adder with an incoming Carry, which both read whatever `moi` is. -/

namespace Sys2Proof.Machine

/-- Settles O12: the value and the flags of sbb as numbers; sub is sbb without a borrow. -/
theorem subtractWithBorrowRule : Obligations.SubtractWithBorrowRule := by
  intro a b c
  have hflags := aluSbb_flags a b c
  exact ⟨aluSbb_value_toNat a b c, congrArg FlagUpdate.z hflags, congrArg FlagUpdate.s hflags,
    congrArg FlagUpdate.c hflags, congrArg FlagUpdate.v hflags, (aluSub_eq_aluSbb a b).symm⟩

/-- Like the adder, sbb proposes all four flags. -/
theorem applyUpdate_aluSbb (a b : Half) (c : Bool) (f : Flags) :
    applyUpdate (aluSbb a b c).flags f = arithFlags (aluSbb a b c).value.toNat
      (decide (a.toNat < b.toNat + c.toNat))
      (outside16 (signed16 a.toNat - signed16 b.toNat - (c.toNat : Int))) := by
  rw [aluSbb_flags]
  rfl

/-- Settles O22: the difference less the borrow and its flags (`applyUpdate_aluSbb`) at the end of an ALU instruction,
with the secondary operand as the minuend. -/
theorem sbbWritesDifferenceAndFlags : Obligations.SbbWritesDifferenceAndFlags := by
  intro moi rd rs sec s
  have hc : Completes (.sbb moi rd rs sec) rd s _ _ := completes_of_finishAlu rfl
  rwa [applyUpdate_aluSbb, aluSbb_value_toNat, lo16_secValue_toNat, lo16_primValue_toNat] at hc

/-- Settles O24: the adder with Carry as its incoming bit, at the end of an ALU instruction. -/
theorem adcWritesSumAndFlags : Obligations.AdcWritesSumAndFlags := by
  intro moi rd rs sec s
  have hc : Completes (.adc moi rd rs sec) rd s _ _ := completes_of_finishAlu rfl
  rwa [aluAdc, applyUpdate_addc, addc_value_toNat, lo16_primValue_toNat, lo16_secValue_toNat] at hc

end Sys2Proof.Machine
end

section
/-! SUPPORT. Proofs for 42_move_exchange.md, the merges of move (R110) and exchange (R111): the merged word and the
merge flags (41_alu.md R103) on naturals, for any two halves. -/

namespace Sys2Proof.Machine

theorem normalize_toNat (w : Word) : (normalize w).toNat = normNat w.toNat := by
  rw [normalize_eq_mod, normNat]
  exact apply_ite BitVec.toNat _ _ _

theorem mergeHalves_eq_zero_iff (hi lo : Half) : mergeHalves hi lo = 0 ↔ hi.toNat = 0 ∧ lo.toNat = 0 := by
  have hzero : (0 : Word).toNat = 0 := rfl
  rw [← BitVec.toNat_inj, mergeHalves_toNat, hzero]
  omega

/-- Bit 31 of a merged word is bit 15 of its high half. -/
theorem bit31_mergeHalves (hi lo : Half) : bit31 (mergeHalves hi lo) = decide (32768 ≤ hi.toNat) := by
  have hlo := lo.isLt
  rw [bit31, mergeHalves_toNat, decide_eq_decide]
  omega

/-- A committed merge takes Zero and Sign by either view (D2), clears Carry and keeps Overflow (D19). -/
theorem applyUpdate_mergeFlags (view : MergeFlagView) (hi lo : Half) (f : Flags) :
    applyUpdate (mergeFlags view (mergeHalves hi lo)) f = mergedFlags view hi.toNat lo.toNat f := by
  cases view with
  | low16 =>
    simp only [mergeFlags, mergedFlags, lo16_mergeHalves, decide_half_eq_zero]
    rfl
  | word32 =>
    simp only [mergeFlags, mergedFlags, bit31_mergeHalves, mergeHalves_eq_zero_iff]
    rfl

theorem completes_of_finishMerge {i : Instr} {moi : Bool} {rd : Reg} {hi lo : Half} {s : State}
    (h : exec i s = .next (finishMerge moi rd (mergeHalves hi lo) s)) :
    Completes i rd s (normNat (hi.toNat * 65536 + lo.toNat))
      (if moi then mergedFlags s.params.readings.mergeView hi.toNat lo.toNat s.flags else s.flags) := by
  rw [← applyUpdate_mergeFlags, ← mergeHalves_toNat, ← normalize_toNat]
  exact completes_of_writeback _ _ h

/-- Settles O19: the high half of the primary value over the low half of the secondary one. -/
theorem moveMergesHalves : Obligations.MoveMergesHalves := by
  intro moi rd rs sec s
  have hc : Completes (.move moi rd rs sec) rd s _ _ := completes_of_finishMerge rfl
  rwa [hi16_toNat, lo16_secValue_toNat] at hc

/-- Settles O20: the low half of the primary value over the high half of the secondary one. -/
theorem exchangeMergesHalves : Obligations.ExchangeMergesHalves := by
  intro moi rd rs sec s
  have hc : Completes (.exchange moi rd rs sec) rd s _ _ := completes_of_finishMerge rfl
  rwa [hi16_toNat, lo16_primValue_toNat] at hc

end Sys2Proof.Machine
end

section
/-! SUPPORT. Proofs for 44_logic_shift.md, the statement on xor, or and and (R130 to R132; 41_alu.md R102). -/

namespace Sys2Proof.Machine

/-- A committed bitwise update clears Carry and keeps Overflow (D19). -/
theorem applyUpdate_logicFlags (r : Half) (f : Flags) :
    applyUpdate (logicFlags r) f = arithFlags r.toNat false f.v := by
  rw [arithFlags, ← decide_half_eq_zero]
  rfl

/-- The end that the three bitwise instructions share, for whatever half `r` they compute. -/
theorem completes_of_logic {i : Instr} {moi : Bool} {rd : Reg} {r : Half} {s : State}
    (h : exec i s = .next (finishAlu moi rd ⟨r, logicFlags r⟩ s)) :
    Completes i rd s r.toNat (if moi then arithFlags r.toNat false s.flags.v else s.flags) := by
  rw [← applyUpdate_logicFlags]
  exact completes_of_finishAlu h

/-- Settles O25: each instruction is `completes_of_logic` for its own operation on the low halves. -/
theorem logicWritesBitsAndFlags : Obligations.LogicWritesBitsAndFlags := by
  intro moi rd rs sec s
  rw [← lo16_primValue_toNat, ← lo16_secValue_toNat, ← BitVec.toNat_xor, ← BitVec.toNat_or, ← BitVec.toNat_and]
  exact ⟨completes_of_logic rfl, completes_of_logic rfl, completes_of_logic rfl⟩

end Sys2Proof.Machine
end

section
/-! SUPPORT. Proofs for 46_control.md, jump (R150) and halt (R155) at dispatch. -/

namespace Sys2Proof.Machine

theorem onLastCore_iff {s : State} : onLastCore s = true ↔ s.core + 1 = ncores s.params := decide_eq_true_iff

theorem exec_jump_of_not_taken {s : State} {cond : Cond} (hcond : conditionTable s.flags cond = false)
    (moi : Bool) (rd : Reg) (sync : Bool) (sec : Operand) :
    exec (.jump moi rd sync cond sec) s = .next (advance s) := by
  simp [exec, execJump, hcond]

/-- The jump goes to its target when it does not wait for the last core. -/
theorem exec_jump_of_taken {s : State} {cond : Cond} {sync : Bool} (hcond : conditionTable s.flags cond = true)
    (hgoes : ¬(sync = true ∧ s.core + 1 = ncores s.params)) (moi : Bool) (rd : Reg) (sec : Operand) :
    exec (.jump moi rd sync cond sec) s = .next (redirect (secValue s sec) (writeReg rd.val (s.pc + 1) s)) := by
  have hwaits : ¬(sync && onLastCore s) = true := by rwa [Bool.and_eq_true, onLastCore_iff]
  simp only [exec, execJump, hcond, hwaits, if_true, if_false, Bool.false_eq_true]

/-- The link of D26 is the natural successor, since `normalize` changes no word from 1 to 65536. -/
theorem normalize_succ_toNat {w : Word} (h : w.toNat < 65536) : (normalize (w + 1)).toNat = w.toNat + 1 := by
  have hone : (1 : Word).toNat = 1 := rfl
  have hsucc : (w + 1).toNat = w.toNat + 1 := by
    rw [BitVec.toNat_add, hone]
    omega
  rw [normalize_toNat, hsucc, normNat, if_neg (by omega)]

/-- Settles O29: the three answers of a jump; the target is the operand of the state before the link is written. -/
theorem jumpRule : Obligations.JumpRule := by
  intro moi rd sync cond sec s
  refine ⟨fun hcond => exec_jump_of_not_taken hcond moi rd sync sec, fun hcond hsync hlast => ?waits,
    fun hcond hgoes => ⟨_, exec_jump_of_taken hcond hgoes moi rd sec, rfl, ?dest, fun hpc => ?link, rfl,
      sameRegsExcept_of_write rfl, fun _ => rfl, rfl⟩⟩
  case waits =>
    rw [hsync]
    exact exec_jump_of_waiting hcond (onLastCore_iff.mpr hlast)
  case dest => rw [DestHolds, readReg_redirect, readReg_writeReg_reg, if_pos rfl]
  case link =>
    rw [DestNat, readReg_redirect, readReg_writeReg_reg, if_pos rfl, ← normalize_succ_toNat hpc]
    exact apply_ite BitVec.toNat _ _ _

/-- Settles O30: the dispatch of halt names no field. -/
theorem haltRule : Obligations.HaltRule := fun _ _ _ _ _ => rfl

end Sys2Proof.Machine
end

section
/-! SUPPORT. Proofs for 47_load_store.md, load and store at dispatch (R161, R162). -/

namespace Sys2Proof.Machine

/-- Settles O32: arming the slot and advancing, for either instruction. -/
theorem loadAndStoreArmTheSlot : Obligations.LoadAndStoreArmTheSlot := fun moi rd rs sec s =>
  ⟨exec_load moi rd rs sec s, exec_store moi rd rs sec s⟩

end Sys2Proof.Machine
end

section
/-! SUPPORT. Proofs for 10_state.md, what an instruction reads of the flags (R17). -/

namespace Sys2Proof.Machine

/-- The gate of a multiply does not look at the flags. -/
theorem finishMul_withFlags (rd : Reg) (v : Half) (s : State) (f : Flags) :
    finishMul rd v { s with flags := f } = { finishMul rd v s with flags := f } := by
  have hgate : canMultiply { s with flags := f }.params { s with flags := f }.core =
    canMultiply s.params s.core := rfl
  unfold finishMul
  rw [hgate]
  split <;> rfl

/-- Two-run form of the table: with flags that agree where it says the instruction reads them, the next states differ
in their flags alone. -/
theorem exec_withFlags {i : Instr} {s t : State} (h : exec i s = .next t) {f : Flags}
    (hagree : FlagsReadAgree i s.flags f) : ∃ g, exec i { s with flags := f } = .next { t with flags := g } := by
  cases i with
  | jump moi rd sync cond sec =>
    obtain rfl : s.flags = f := hagree
    exact ⟨t.flags, h⟩
  | sbb moi rd rs sec | adc moi rd rs sec =>
    obtain ⟨z, sg, c, v⟩ := f
    obtain rfl : s.flags.c = c := hagree
    obtain rfl := Host.Outcome.next.inj h
    exact ⟨_, rfl⟩
  | mul rd rs sec | muls rd rs sec | mulh rd rs sec | mulx rd rs sec =>
    obtain rfl := Host.Outcome.next.inj h
    exact ⟨f, congrArg Host.Outcome.next (finishMul_withFlags rd _ s f)⟩
  | _ =>
    obtain rfl := Host.Outcome.next.inj h
    exact ⟨_, rfl⟩

/-- Settles O33: what is written is `exec_flagsAsTabled`, what is read `exec_withFlags`. -/
theorem flagsFollowTheTable : Obligations.FlagsFollowTheTable := by
  intro i s
  obtain ⟨t, hexec, _⟩ := exec_frame i s
  refine ⟨t, hexec, exec_flagsAsTabled hexec, fun f hagree => ?_⟩
  obtain ⟨g, hother⟩ := exec_withFlags hexec hagree
  exact ⟨_, hother, rfl, rfl, rfl, rfl⟩

end Sys2Proof.Machine
end

section
/-! SUPPORT. Proofs for 40_cycle_engine.md, the flush (R77). -/

namespace Sys2Proof.Machine

/-- The register file after the flush of a read: one register write, normalized, and discarded for r0 (D20). -/
theorem flush_regs_of_read {s : State} {a : Half} {r : Reg} (h : s.slot = .read a r) :
    (flush s).regs = (writeReg r.val (memReadWord s a.toNat) s).regs := by
  rw [flush_of_read h, setSlot_regs, writeReg_regs, memReadEffect_regs, writeReg_regs]

/-- Settles O36: the flush of each slot by its own equation; that the slot ends Idle is `flush_slot`. -/
theorem flushRule : Obligations.FlushRule := by
  intro s
  refine ⟨flush_of_idle, fun a r h => ⟨?dest, sameRegsExcept_of_write (flush_regs_of_read h), ?storage, ?frame⟩,
    fun a r h => flush_of_write h, flush_slot s, flush_flags s, flush_pc s⟩
  case dest => rw [DestHolds, readReg_congr (flush_regs_of_read h), readReg_writeReg_reg, if_pos rfl]
  case storage =>
    have hmem : (flush s).mem = s.mem := by simp [flush_of_read h]
    exact fun b => congrArg (cellAt · b) hmem
  case frame =>
    rw [flush_of_read h]
    rfl

end Sys2Proof.Machine
end

section
/-! SUPPORT. Proofs for 70_reset_and_hazards.md, construction (R190), the image (R192) and the reset state (10_state.md
R23). -/

namespace Sys2Proof.Machine

/-- A machine just constructed is between cycles and has loaded no image, so the image is stored. -/
theorem boot_eq_storeImage (p : Params) (image : List Word) (rhooks whooks : List Hook) :
    boot p image rhooks whooks = storeImage image (construct p rhooks whooks) :=
  loadImage_of_loadable rfl rfl image

theorem readReg_construct (p : Params) (rhooks whooks : List Hook) (i : Nat) :
    readReg (construct p rhooks whooks) i = 0 := by
  have hregs : (construct p rhooks whooks).regs = Vector.replicate 31 0 := rfl
  unfold readReg
  split
  · simp only [hregs, Vector.getElem_replicate]
  · rfl

/-- Settles O43: storage is that of `storeImage`; every other field is as the construction writes it. -/
theorem constructionSetsTheResetValues : Obligations.ConstructionSetsTheResetValues := by
  intro p image rh wh
  rw [boot_eq_storeImage]
  exact ⟨cellAt_storeImage image (construct p rh wh), storeImage_wf image _, readReg_construct p rh wh, rfl, rfl⟩

/-- Settles O42: the parameters of log entry 2 are in range, and every list of the reset state is empty. -/
theorem resetMeetsTheInvariant : Obligations.ResetMeetsTheInvariant where
  config := by decide
  storage := reset_memory_wf
  inRange := by simp [StorageInRange, State.reset]
  regs := by
    intro i
    have hzero : State.reset.regs[i] = 0 := by simp [State.reset]
    rw [hzero, normalize_zero]
  slot := fun _ => rfl
  trace := Nat.zero_le _
  halted := by simp [State.reset]
  image := fun _ => ⟨rfl, rfl⟩

end Sys2Proof.Machine
end

section
/-! SUPPORT. Proofs for 20_memory.md, what a step keeps: the parameters and the hook lists (R36, D23, D24), and all of
storage but the cell of a store (R46). -/

namespace Sys2Proof.Machine

/-- Settles O46: neither the turn nor a flush writes a parameter or a hook list. -/
theorem parametersAndHooksAreConstant : Obligations.ParametersAndHooksAreConstant := by
  intro s t hstep
  refine ⟨step_params hstep, ?_⟩
  obtain ⟨_, ⟨_, rfl⟩ | ⟨_, u, hturn, rfl⟩⟩ := step_cases hstep
  · exact ⟨rfl, rfl⟩
  · have hframe := takeTurn_dispatchFrame hturn
    exact ⟨by simp [hframe.rhooks], by simp [hframe.whooks]⟩

/-- A write in the slot was armed by a store, which changes no register. -/
theorem store_of_exec_armed_write {i : Instr} {s t : State} {a : Half} {r : Reg} (hidle : s.slot = .idle)
    (h : exec i s = .next t) (harmed : t.slot = .write a r) :
    ∃ moi rs sec, i = .store moi r rs sec ∧ a = effectiveAddress s rs sec ∧ t.regs = s.regs := by
  have hnew : t.slot ≠ s.slot := by simp [harmed, hidle]
  cases i with
  | store moi rd rs sec =>
    obtain rfl := Host.Outcome.next.inj h
    obtain ⟨rfl, rfl⟩ := Slot.write.inj harmed
    exact ⟨moi, rs, sec, rfl, rfl, rfl⟩
  | load moi rd rs sec =>
    obtain rfl := Host.Outcome.next.inj h
    contradiction
  | jump moi rd sync cond sec =>
    obtain hc | hc | hc := exec_jump_cases moi rd sync cond sec s
    all_goals
      obtain rfl := Host.Outcome.next.inj (hc.symm.trans h)
      exact absurd rfl hnew
  | mul rd rs sec | muls rd rs sec | mulh rd rs sec | mulx rd rs sec =>
    obtain rfl := Host.Outcome.next.inj h
    exact absurd (finishMul_slot rd _ s) hnew
  | _ =>
    obtain rfl := Host.Outcome.next.inj h
    exact absurd rfl hnew

/-- Settles O48: the dispatch leaves storage, and the flush after it writes a cell only for a slot that a store
armed. -/
theorem onlyStoresChangeStorage : Obligations.OnlyStoresChangeStorage := by
  intro s t hidle hevery hrun hwf hstep b hchanged
  obtain ⟨u, hexec, rfl⟩ := step_idle_cases hidle hrun hstep
  have hframe := dispatchFrame_of_exec hexec
  have hparams : u.params = s.params := by simpa using hframe.params
  have hwhooks : u.whooks = s.whooks := by simpa using hframe.whooks
  have humem : u.mem = s.mem := by simpa using hframe.mem
  have hregs : (afterFetch (wrapPc s)).regs = s.regs := afterFetch_regs _
  rw [endTurn_mem, flushAfterTurn_of_everyTurn (by rwa [hparams])] at hchanged ⊢
  obtain hsame | ⟨a, r, harmed, hhook, hlt, hset⟩ := flush_mem_cases u
  · exact absurd (by rw [hsame, humem]) hchanged
  · obtain ⟨moi, rs, sec, hstore, haddr, huregs⟩ := store_of_exec_armed_write (by simpa using hidle) hexec harmed
    rw [hset, humem, cellAt_cellSet hwf] at hchanged ⊢
    obtain rfl : b = a.toNat := by
      by_contra hother
      exact hchanged (if_neg hother)
    rw [effectiveAddress_congr hregs] at haddr
    rw [if_pos rfl, readReg_congr (huregs.trans hregs)]
    exact ⟨moi, r, rs, sec, hstore, congrArg BitVec.toNat haddr, by rwa [← hparams],
      by rwa [NotWriteHooked, ← hwhooks], rfl⟩

end Sys2Proof.Machine
end
